-- ==== Sys2Proof/Word.lean ====
section
/-! DEFINITION. The word, byte and bit types of FSKRX and the bit sequences built from bits
(spec/00_scope.md section 4). -/

namespace Sys2Proof

/-- A command word or an event-port word: 32 bits, bit 0 least significant (`CMDW`, 00_scope.md R5;
30_encoding.md R51, R59). -/
abbrev Word := BitVec 32

/-- A bin magnitude, strength or threshold: unsigned, `MAGW` = 8 bits (00_scope.md R5). -/
abbrev Byte := BitVec 8

/-- A bit is 0 (`false`) or 1 (`true`) (00_scope.md section 4). -/
abbrev Bit := Bool

/-- A finite ordered list of bits, index 0 the oldest (00_scope.md section 4). -/
abbrev BitSequence := List Bit

end Sys2Proof
end

