-- ==== Sys2Proof/Syntax.lean ====
section
/-! DEFINITION. The four commands of FSKRX as syntax (spec/30_encoding.md R50). -/

namespace Sys2Proof

/-- One constructor per row of spec/opcode_table.json. The operands of TICK are the numbers the fields stand for
(30_encoding.md R54: unsigned, neither extended nor scaled); `Instr.WellFormed` holds them to their fields. -/
inductive Instr where
  /-- An analysis tick for which no sample is ready (44_control.md R130). -/
  | nop
  /-- `start()` (44_control.md R131). -/
  | start
  /-- `stop()` (44_control.md R132). -/
  | stop
  /-- One run of the analysis tick handler: sample rate in Hz and base-2 logarithm of the FFT size
  (44_control.md R133). -/
  | tick (srate lgfft : Nat)
  deriving DecidableEq, Repr

end Sys2Proof
end

