-- ==== Sys2Proof/WellFormed.lean ====
section
/-! DEFINITION. The instructions a command word can hold (spec/30_encoding.md R51, spec/00_scope.md R5). -/

namespace Sys2Proof

/-- `SRW`: width in bits of the TICK operand `srate` (00_scope.md R5). -/
abbrev srateWidth : Nat := 24

/-- `LGW`: width in bits of the TICK operand `lgfft` (00_scope.md R5). -/
abbrev lgfftWidth : Nat := 5

/-- The operands fit their fields: `srate` 0 to 16777215, `lgfft` 0 to 31 (30_encoding.md R51). -/
def Instr.wellFormed : Instr → Bool
  | .nop => true
  | .start => true
  | .stop => true
  | .tick srate lgfft => decide (srate < 2 ^ srateWidth) && decide (lgfft < 2 ^ lgfftWidth)

/-- `Instr.wellFormed` as a proposition. -/
abbrev Instr.WellFormed (i : Instr) : Prop := i.wellFormed = true

end Sys2Proof
end

