-- ==== Sys2Proof/Decode.lean ====
section
/-! DEFINITION. The decoder, total on every 32-bit word, and after it the encoder (spec/30_encoding.md R51 to R55). -/

namespace Sys2Proof

/-- Why a word is ILLEGAL (30_encoding.md R55 gives one outcome, ILLEGAL, on two grounds; the names are the
model's, log entry 13). -/
inductive IllegalWord where
  /-- `w[29] = 1`. -/
  | reservedBit
  /-- A word with `op ≠ 0b11` and `w[28:0] ≠ 0`. -/
  | operandBits
  deriving DecidableEq, Repr

/-- Field `op`, `w[31:30]` (R51). -/
def opField (w : Word) : BitVec 2 := w.extractLsb 31 30

/-- Field `rsv`, `w[29]` (R51). -/
def rsvField (w : Word) : BitVec 1 := w.extractLsb 29 29

/-- Field `lgfft`, `w[28:24]` (R51). -/
def lgfftField (w : Word) : BitVec 5 := w.extractLsb 28 24

/-- Field `srate`, `w[23:0]` (R51). -/
def srateField (w : Word) : BitVec 24 := w.extractLsb 23 0

/-- The bits an operand-less command must have zero, `w[28:0]` (R55). -/
def operandField (w : Word) : BitVec 29 := w.extractLsb 28 0

/-- The decoder, in the order of R55's own text. -/
def decode (w : Word) : Except IllegalWord Instr :=
  if rsvField w = 1 then .error .reservedBit
  else if opField w = 0b11 then .ok (.tick (srateField w).toNat (lgfftField w).toNat)
  else if operandField w ≠ 0 then .error .operandBits
  else if opField w = 0b00 then .ok .nop
  else if opField w = 0b01 then .ok .start
  else .ok .stop

/-- A word from its fields, `op ‖ rsv ‖ lgfft ‖ srate` (R51). -/
def assemble (op : BitVec 2) (lgfft : BitVec 5) (srate : BitVec 24) : Word :=
  op ++ (0 : BitVec 1) ++ lgfft ++ srate

/-- The encoder (R52, R53). An operand too wide for its field is cut to it; no well-formed instruction has one. -/
def encode : Instr → Word
  | .nop => assemble 0b00 0 0
  | .start => assemble 0b01 0 0
  | .stop => assemble 0b10 0 0
  | .tick srate lgfft => assemble 0b11 (BitVec.ofNat 5 lgfft) (BitVec.ofNat 24 srate)

/-- The command word of a table row: a command is one 32-bit word presented whole (R51), so it has no byte order
(log entry 16); the bits above `nbits` are 0. -/
def tableWord (nbits w : Nat) : Word := BitVec.ofNat 32 (w % 2 ^ nbits)

/-- What the decoder reads from a row's word, for the host's check; no command is longer than 32 bits (R51). -/
def decodeTableWord (nbits w : Nat) : Option Instr :=
  if nbits ≤ 32 then (decode (tableWord nbits w)).toOption else none

end Sys2Proof
end

