-- ==== Sys2Proof/Config.lean ====
section
/-! DEFINITION. The configuration record `cfg`: every numeric literal of the document as a named parameter
(spec/00_scope.md section 3, rules R3 to R6). -/

namespace Sys2Proof

/-- The parameters of the block, constant for its life. The widths `MAGW`, `SRW`, `LGW`, `CMDW` of R5 are the
widths of `Byte`, of the TICK operands (`Instr.WellFormed`) and of `Word`. -/
structure Config where
  /-- `F0` in Hz: the carrier that encodes bit 0 (R3). -/
  f0 : Nat
  /-- `F1` in Hz: the carrier that encodes bit 1 (R3). -/
  f1 : Nat
  /-- `TOL` in Hz: the detection tolerance (R3). -/
  tol : Nat
  /-- `PREAMBLE`, oldest bit first (R3). -/
  preamble : BitSequence
  /-- `WINLEN`: length of the sync window (R3). -/
  winLen : Nat
  /-- `TERMLEN`: number of consecutive 1-bits of the terminator (R3). -/
  termLen : Nat
  /-- `GUARD`: a terminator is accepted only when the payload length is strictly greater (R3). -/
  guard : Nat
  /-- `MINDET`: a strength not above it carries no usable bit (R4). -/
  minDet : Byte
  /-- `HIGH`: a strength above it sets the presence state (R4). -/
  high : Byte
  /-- `LOW`: a strength below it clears the presence state (R4). -/
  low : Byte
  /-- `PMAX`: capacity of the payload buffer in bits, `none` for ∞ (R5, OPEN). -/
  pmax : Option Nat
  deriving DecidableEq, Repr

/-- The document's values (R3, R4), which are the normative default, with the document's unbounded payload
buffer `PMAX = ∞` (R5). -/
def Config.document : Config where
  f0 := 1200
  f1 := 2200
  tol := 200
  preamble := [true, false, true, false, true, false, true, false]
  winLen := 8
  termLen := 8
  guard := 24
  minDet := 90
  high := 140
  low := 80
  pmax := none

/-- A well-formed configuration (R6). No operation of the model needs it; it records the configurations the
document has in mind. -/
abbrev Config.WellFormed (cfg : Config) : Prop :=
  cfg.low ≤ cfg.high ∧ cfg.preamble.length = cfg.winLen ∧ 1 ≤ cfg.winLen ∧ 1 ≤ cfg.termLen ∧
    (cfg.pmax.all fun m => decide (cfg.guard + 1 ≤ m)) = true

end Sys2Proof
end

