-- ==== Sys2Proof/Machine/State.lean ====
section
/-! DEFINITION. The state of FSKRX as plain data, its reset, and the reasons a step can stop
(spec/10_state.md, spec/20_memory.md, spec/30_encoding.md R58, spec/70_reset_and_hazards.md R180). -/

namespace Sys2Proof.Machine

/-- The document's DetectorState (10_state.md R10). The status code `0b11` has no constructor: it never occurs. -/
inductive DetectorState where
  | idle
  | syncing
  | receiving
  deriving DecidableEq, Repr

/-- The three sticky bits of `flt` (10_state.md R15, 60_exceptions.md R155). -/
inductive FaultBit where
  /-- Bit 0: a command word that decodes to ILLEGAL. -/
  | illcmd
  /-- Bit 1: a TICK in `ds ≠ IDLE` with illegal operands. -/
  | badopd
  /-- Bit 2: an admitted bit in RECEIVING while `plen = PMAX`. -/
  | ovf
  deriving DecidableEq, Repr

/-- The events of 30_encoding.md R58. -/
inductive Event where
  /-- The analyzer's result: the bit, `none` for null, and the strength. -/
  | ana (bit : Option Bit) (strength : Byte)
  /-- The lock. -/
  | sync
  /-- One payload bit appended. -/
  | bit (b : Bit)
  /-- The frame hand-over. -/
  | data (p : BitSequence)
  deriving DecidableEq, Repr

/-- The spectrum space: bin address and magnitude, addresses strictly rising, no entry equal to what an unlisted
bin reads as (20_memory.md R30; log entry 5). -/
abbrev Memory := List Host.Cell

/-- One command as the host presents it: the command word and the content `X` of the spectrum space during that
command (00_scope.md R7, 20_memory.md R30, R41). -/
structure Presentation where
  word : Word
  spectrum : Memory
  deriving DecidableEq, Repr

/-- The state. `ds`, `cs`, `win`, `pbuf`, `flt` are the whole state of the block (10_state.md); `cfg` is the
read-only configuration (10_state.md R12); `spectrum`, `port` and `events` hold what the host supplies and receives
(00_scope.md R7; log entries 1, 4, 11). -/
structure State where
  /-- Detector state (R10). -/
  ds : DetectorState
  /-- Presence state (R11). -/
  cs : Bit
  /-- Sync window, index 0 oldest (R13). -/
  win : BitSequence
  /-- Payload buffer, index 0 the first bit after the lock (R14). -/
  pbuf : BitSequence
  /-- Fault register: bit 0 ILLCMD, bit 1 BADOPD, bit 2 OVF (R15). -/
  flt : BitVec 3
  /-- The configuration record; no command writes it (R12, 20_memory.md R40). -/
  cfg : Config
  /-- The spectrum space during the current command, the host's memory (20_memory.md R30). -/
  spectrum : Memory
  /-- The commands presented and not yet taken, oldest first (00_scope.md R2). -/
  port : List Presentation
  /-- The events emitted so far, oldest first: "the output of a run is the concatenation of the event lists"
  (00_scope.md R7). -/
  events : List Event
  deriving DecidableEq, Repr

/-- The reasons a step can stop with a fault. A hardware fault (`FaultBit`) is none of them: it sets a sticky bit
and the machine goes on (60_exceptions.md R157). -/
inductive Fault where
  /-- A read of a spectrum bin outside `0 .. nbins-1`, an address that does not exist (20_memory.md R35). Raised by
  `memRead` only. Safe: the machine stops where the spec gives no value. No command reaches it, because the
  legality check comes before every read (40_analyzer.md R74; log entry 8). -/
  | spectrumAddress (a : Nat)
  deriving DecidableEq, Repr

/-- The reasons a step can be refused. -/
inductive Refusal where
  /-- An instruction without a meaning, by its mnemonic. Raised by `exec`'s refused arms only, of which there is
  none. Safe: the machine stops. -/
  | notModelled (mnemonic : String)
  deriving DecidableEq, Repr

/-- The state after reset under the configuration `cfg` (10_state.md R21, 70_reset_and_hazards.md R180); no command
presented, no event emitted, no bin listed (log entries 1, 4, 5, 11). -/
def State.resetWith (cfg : Config) : State where
  ds := .idle
  cs := false
  win := []
  pbuf := []
  flt := 0
  cfg := cfg
  spectrum := []
  port := []
  events := []

/-- The state right after reset, with the document's parameter values (R21: "their configured constants"); `PMAX`
is ∞ there (log entry 6). -/
def State.reset : State := State.resetWith Config.document

end Sys2Proof.Machine
end

