-- ==== Sys2Proof/Machine/Ops.lean ====
section
/-! DEFINITION. The shared operations over memory, registers, events and faults (spec/00_scope.md section 4,
spec/20_memory.md, spec/10_state.md, spec/60_exceptions.md R156). -/

namespace Sys2Proof

/-- `ones(n)`: the sequence of `n` bits all 1 (00_scope.md section 4). -/
def ones (n : Nat) : BitSequence := List.replicate n true

/-- `n ≤ PMAX`, every `n` when `PMAX = ∞`. -/
def Config.fits (cfg : Config) (n : Nat) : Bool :=
  match cfg.pmax with
  | none => true
  | some m => decide (n ≤ m)

end Sys2Proof

namespace Sys2Proof.Machine

/-! ## The spectrum space -/

/-- What an unlisted bin reads as: "every other bin holds 0" (30_encoding.md R61; log entry 5). -/
def unlistedByte : Byte := 0

/-- The magnitude at a bin address. -/
def Memory.read : Memory → Nat → Byte
  | [], _ => unlistedByte
  | (k, v) :: rest, a => if k = a then v else Memory.read rest a

/-- Every address of the list is above `lo`, the addresses rise strictly, and no entry holds the unlisted byte. -/
def Memory.wfFrom : Nat → Memory → Bool
  | _, [] => true
  | lo, (k, v) :: rest => decide (lo ≤ k) && decide (v ≠ unlistedByte) && Memory.wfFrom (k + 1) rest

/-- The canonical form of the spectrum list: equal spectra are equal lists. -/
def Memory.wf (m : Memory) : Bool := Memory.wfFrom 0 m

/-- The HOST's write of one bin (20_memory.md R30: the core never writes the spectrum space); it keeps the
canonical form. -/
def Memory.write : Memory → Nat → Byte → Memory
  | [], a, b => if b = unlistedByte then [] else [(a, b)]
  | (k, v) :: rest, a, b =>
    if a < k then (if b = unlistedByte then (k, v) :: rest else (a, b) :: (k, v) :: rest)
    else if a = k then (if b = unlistedByte then rest else (a, b) :: rest)
    else (k, v) :: Memory.write rest a b

/-- The HOST's fill of the spectrum space from the listed bins (30_encoding.md R61). DESIGN CHOICE: R61 does not say
what a bin listed twice in one line holds; here the later entry replaces the earlier one (log entry 18). -/
def Memory.fill (cells : List (Nat × Byte)) : Memory :=
  cells.foldl (fun m c => Memory.write m c.1 c.2) []

/-- `MemRead(SPEC, a, 1)`: "defined only for `0 ≤ a < nbins`" (00_scope.md section 4); an address that does not
exist is the error. -/
def memRead (X : Memory) (nbins a : Nat) : Except Nat Byte :=
  if a < nbins then .ok (Memory.read X a) else .error a

/-- The larger of two unsigned magnitudes. -/
def byteMax (a b : Byte) : Byte := if a < b then b else a

/-- The maximum of the magnitudes at the listed addresses (40_analyzer.md R76), 0 for no address; the first
address that does not exist is the error. -/
def maxRead (X : Memory) (nbins : Nat) : List Nat → Except Nat Byte
  | [] => .ok 0
  | a :: rest =>
    match memRead X nbins a, maxRead X nbins rest with
    | .ok v, .ok m => .ok (byteMax v m)
    | .error e, _ => .error e
    | .ok _, .error e => .error e

/-! ## Bits in bytes -/

/-- The bits grouped into a byte, most significant bit first, missing bits 0: the sum of `p[j] × 2^(7-j)` for
`j = 0..7` (20_memory.md R34). -/
def packByte (bits : BitSequence) : Byte :=
  BitVec.ofNat 8 (((List.range 8).map fun j => if bits.getD j false then 2 ^ (7 - j) else 0).sum)

/-- The last `n` bits; the whole sequence when it is shorter (00_scope.md section 4; log entry 9). -/
def lastn (s : BitSequence) (n : Nat) : BitSequence := s.drop (s.length - n)

/-! ## Registers, events, status -/

/-- `ds <- target`, which clears the sync window and the payload buffer: "`win` is set to `[]` by every rule that
writes `ds`" (42_sync.md R105) and so is `pbuf` (10_state.md R14). -/
def enterDs (target : DetectorState) (s : State) : State :=
  { s with ds := target, win := [], pbuf := [] }

/-- `emit E`: append the event to the output (00_scope.md section 4). -/
def emit (e : Event) (s : State) : State := { s with events := s.events ++ [e] }

/-- The bit of `flt` a fault sets (60_exceptions.md R155: `0b001`, `0b010`, `0b100`). -/
def FaultBit.mask : FaultBit → BitVec 3
  | .illcmd => 0b001
  | .badopd => 0b010
  | .ovf => 0b100

/-- Taking an exception: `raise F` is `flt <- flt OR F` (60_exceptions.md R156). No register saves anything and
control goes nowhere (R157), so this is all of it. There is no return beside it: "there is nothing to return from"
(R157). -/
def raiseFault (f : FaultBit) (s : State) : State := { s with flt := s.flt ||| f.mask }

/-- One bit of the fault register (10_state.md R15). -/
def faultSet (f : FaultBit) (s : State) : Bool := s.flt &&& f.mask != 0

/-- `ds` as its 2-bit status output (10_state.md R10). -/
def DetectorState.code : DetectorState → BitVec 2
  | .idle => 0b00
  | .syncing => 0b01
  | .receiving => 0b10

/-- What the host can read between two commands (10_state.md R16). -/
structure StatusOutputs where
  ds : BitVec 2
  cs : BitVec 1
  flt : BitVec 3
  deriving DecidableEq, Repr

/-- The status outputs of a state (10_state.md R16). -/
def statusOutputs (s : State) : StatusOutputs where
  ds := s.ds.code
  cs := BitVec.ofBool s.cs
  flt := s.flt

/-! ## The host's moves -/

/-- The host presents a command behind those already presented (00_scope.md R2). -/
def hostPresent (p : Presentation) (s : State) : State := { s with port := s.port ++ [p] }

/-- The host resets the block between two commands (70_reset_and_hazards.md R180): the five state elements take
their values of 10_state.md R21, no event is emitted, and what is the host's stays (log entry 12). -/
def hostReset (s : State) : State :=
  { State.resetWith s.cfg with spectrum := s.spectrum, port := s.port, events := s.events }

/-- The core takes the oldest presented command; during it the spectrum space holds what was presented with it
(20_memory.md R38, R41). -/
def takeCommand (p : Presentation) (rest : List Presentation) (s : State) : State :=
  { s with port := rest, spectrum := p.spectrum }

end Sys2Proof.Machine
end

