-- ==== Sys2Proof/Machine/Flags.lean ====
section
/-! DEFINITION. The one flag of the block, the presence state `cs`: how a strength sets it and how it admits a bit
(spec/41_hysteresis.md R90, R92), and the analyzer's bit decision (spec/40_analyzer.md R78). -/

namespace Sys2Proof.Machine

/-- The presence state after a sample: "`cs' = 0 if strength < LOW; else 1 if strength > HIGH; else cs`"
(41_hysteresis.md R90). -/
def hysteresis (cfg : Config) (strength : Byte) (cs : Bit) : Bit :=
  if strength < cfg.low then false else if cfg.high < strength then true else cs

/-- `adm = (strength > MINDET) and (cs = 1)`, `cs` read after the update (41_hysteresis.md R92). -/
def admits (cfg : Config) (strength : Byte) (cs : Bit) : Bool := decide (cfg.minDet < strength) && cs

/-- The bit decision: null at or below `MINDET`, else 1 exactly when `mag1 > mag0` (40_analyzer.md R78). -/
def bitDecision (cfg : Config) (mag0 mag1 strength : Byte) : Option Bit :=
  if cfg.minDet < strength then some (decide (mag0 < mag1)) else none

end Sys2Proof.Machine
end

