-- ==== Sys2Proof/Machine/Operands.lean ====
section
/-! DEFINITION. The operands of TICK: FFT size, number of bins, bin mapping, carrier windows and their legality
(spec/20_memory.md R31, spec/30_encoding.md R54, spec/40_analyzer.md R71 to R75). -/

namespace Sys2Proof.Machine

/-- `N = 2^lgfft` (30_encoding.md R54). -/
def fftSize (lgfft : Nat) : Nat := 2 ^ lgfft

/-- `nbins = N div 2` (20_memory.md R31). -/
def binCount (N : Nat) : Nat := N / 2

/-- `rhu(num / den)`, round half up of an exact rational, in the integer form (40_analyzer.md R75). -/
def rhu (num den : Nat) : Nat := (2 * num + den) / (2 * den)

/-- `bin(f) = rhu(f × N / S)` (40_analyzer.md R71). -/
def binOf (f N S : Nat) : Nat := rhu (f * N) S

/-- `radius = rhu(TOL × N / S)` (40_analyzer.md R72). -/
def radius (cfg : Config) (N S : Nat) : Nat := rhu (cfg.tol * N) S

/-- A carrier window: the consecutive bins from `centre - radius` to `centre + radius`, both included
(40_analyzer.md R73). -/
structure Window where
  centre : Nat
  radius : Nat
  deriving DecidableEq, Repr

/-- Every address of the window lies in `0 .. nbins-1` (40_analyzer.md R74: `centre - radius ≥ 0` and
`centre + radius ≤ nbins - 1`, over the integers). -/
abbrev windowInside (nbins : Nat) (W : Window) : Prop :=
  W.radius ≤ W.centre ∧ W.centre + W.radius < nbins

/-- The `2 × radius + 1` addresses of a window whose lower end is not below 0 (40_analyzer.md R73). -/
def windowAddresses (W : Window) : List Nat := List.range' (W.centre - W.radius) (2 * W.radius + 1)

/-- `W0`, about the carrier of bit 0 (40_analyzer.md R73). -/
def window0 (cfg : Config) (S N : Nat) : Window := ⟨binOf cfg.f0 N S, radius cfg N S⟩

/-- `W1`, about the carrier of bit 1 (40_analyzer.md R73). -/
def window1 (cfg : Config) (S N : Nat) : Window := ⟨binOf cfg.f1 N S, radius cfg N S⟩

/-- The operands of a TICK are legal (40_analyzer.md R74). -/
abbrev legalOperands (cfg : Config) (S N : Nat) : Prop :=
  1 ≤ S ∧ windowInside (binCount N) (window0 cfg S N) ∧ windowInside (binCount N) (window1 cfg S N)

end Sys2Proof.Machine
end

