-- ==== Sys2Proof/Machine/Analyzer.lean ====
section
/-! DEFINITION. TICK stage 1, the FrequencyAnalyzer: a pure function of the operands, the spectrum and the
configuration (spec/40_analyzer.md R70 to R81). -/

namespace Sys2Proof.Machine

/-- What the analyzer computes in one processed tick; none of it is state (10_state.md R17). -/
structure Analysis where
  mag0 : Byte
  mag1 : Byte
  strength : Byte
  /-- `none` is null, "no usable signal". -/
  bit : Option Bit
  deriving DecidableEq, Repr

/-- The result from the two window maxima (40_analyzer.md R77, R78). -/
def Analysis.ofMagnitudes (cfg : Config) (mag0 mag1 : Byte) : Analysis where
  mag0 := mag0
  mag1 := mag1
  strength := byteMax mag0 mag1
  bit := bitDecision cfg mag0 mag1 (byteMax mag0 mag1)

/-- `analyze(X, S, N)` (40_analyzer.md R70, R76). The error is the first address read that does not exist; legal
operands read none (R74). -/
def analyze (cfg : Config) (X : Memory) (S N : Nat) : Except Nat Analysis :=
  match maxRead X (binCount N) (windowAddresses (window0 cfg S N)),
      maxRead X (binCount N) (windowAddresses (window1 cfg S N)) with
  | .ok mag0, .ok mag1 => .ok (Analysis.ofMagnitudes cfg mag0 mag1)
  | .error a, _ => .error a
  | .ok _, .error a => .error a

/-- The carrier that encodes a bit: "ZERO→freq₀ (1200 Hz), ONE→freq₁ (2200 Hz)" (30_encoding.md R57). -/
def toneOf (cfg : Config) (b : Bit) : Nat := if b then cfg.f1 else cfg.f0

/-- `peakFreq`, which a consumer applies to the bit of an ANA event; no value when the bit is null
(40_analyzer.md R79). -/
def peakFreq (cfg : Config) (bit : Option Bit) : Option Nat := bit.map (toneOf cfg)

end Sys2Proof.Machine
end

