-- ==== Sys2Proof/Machine/Frame.lean ====
section
/-! DEFINITION. TICK stage 3b, the FrameDecoder, and the consumer's byte view of its DATA events
(spec/43_frame.md R110 to R119). -/

namespace Sys2Proof.Machine

/-- The append and its event (43_frame.md R112). -/
def appendBit (b : Bit) (s : State) : State := emit (.bit b) { s with pbuf := s.pbuf ++ [b] }

/-- `term = (plen > GUARD) and (lastn(pbuf, TERMLEN) = ones(TERMLEN))` (43_frame.md R114). -/
abbrev terminated (cfg : Config) (pbuf : BitSequence) : Prop :=
  cfg.guard < pbuf.length ∧ lastn pbuf cfg.termLen = ones cfg.termLen

/-- `p = pbuf[0 .. plen - TERMLEN)` (43_frame.md R115). -/
def payloadOf (cfg : Config) (pbuf : BitSequence) : BitSequence := pbuf.take (pbuf.length - cfg.termLen)

/-- The hand-over and reset to SYNCING (43_frame.md R115). -/
def handOver (s : State) : State := enterDs .syncing (emit (.data (payloadOf s.cfg s.pbuf)) s)

/-- The overflow: `raise OVF` and the three writes (43_frame.md R113). -/
def overflow (s : State) : State := enterDs .syncing (raiseFault .ovf s)

/-- `FrameDecoder(b)`: overflow check, append and BIT, terminator test, hand-over (43_frame.md R110). The append
needs `plen < PMAX`, "else rule R113" (R112; log entry 10). -/
def frameDecoder (b : Bit) (s : State) : State :=
  if s.cfg.fits (s.pbuf.length + 1) then
    if terminated s.cfg (s.pbuf ++ [b]) then handOver (appendBit b s) else appendBit b s
  else overflow s

/-- The byte view of a DATA payload: whole bytes from index 0, most significant bit first, the
`len(p) mod 8` last bits discarded (43_frame.md R118). -/
def byteView (p : BitSequence) : List Byte :=
  (List.range (p.length / 8)).map fun k => packByte (p.drop (8 * k))

end Sys2Proof.Machine
end

