-- ==== Sys2Proof/Machine/Sync.lean ====
section
/-! DEFINITION. TICK stage 3a, the SyncDetector (spec/42_sync.md R100 to R105). -/

namespace Sys2Proof.Machine

/-- The window with the new bit appended and the oldest evicted beyond `WINLEN` (42_sync.md R101). -/
def pushWindow (cfg : Config) (win : BitSequence) (b : Bit) : BitSequence :=
  if cfg.winLen < (win ++ [b]).length then (win ++ [b]).drop 1 else win ++ [b]

/-- The lock: `ds <- RECEIVING`, both sequences cleared, SYNC emitted (42_sync.md R102). -/
def lock (s : State) : State := emit .sync (enterDs .receiving s)

/-- `SyncDetector(b)` (42_sync.md R101, R102): no event and no other change unless the window is the preamble
(R103). -/
def syncDetector (b : Bit) (s : State) : State :=
  if pushWindow s.cfg s.win b = s.cfg.preamble then lock s
  else { s with win := pushWindow s.cfg s.win b }

end Sys2Proof.Machine
end

