-- ==== Sys2Proof/Machine/Control.lean ====
section
/-! DEFINITION. The meanings of the four commands and of an illegal word (spec/44_control.md R130 to R137). -/

namespace Sys2Proof.Machine

/-- `NOP`: nothing, in every `ds` (44_control.md R130). -/
def execNop (s : State) : Host.Outcome State Fault Refusal := .next s

/-- `START`: IDLE→SYNCING; nothing in the other states (44_control.md R131). -/
def execStart (s : State) : Host.Outcome State Fault Refusal :=
  if s.ds = .idle then .next (enterDs .syncing s) else .next s

/-- `STOP`: any state → IDLE, the partial payload discarded (44_control.md R132). -/
def execStop (s : State) : Host.Outcome State Fault Refusal := .next (enterDs .idle s)

/-- The one consumer of an admitted bit, chosen by `ds` (43_frame.md R111). A tick in IDLE admits none
(44_control.md R134; log entry 17). -/
def admitBit (b : Bit) (s : State) : State :=
  match s.ds with
  | .idle => s
  | .syncing => syncDetector b s
  | .receiving => frameDecoder b s

/-- The event and the presence update every processed tick makes, whatever its bit (40_analyzer.md R81,
41_hysteresis.md R90, R91). -/
def observe (r : Analysis) (s : State) : State :=
  { emit (.ana r.bit r.strength) s with cs := hysteresis s.cfg r.strength s.cs }

/-- A processed tick from the analyzer's result on: ANA, presence update, admission test with the updated `cs`,
dispatch of the admitted bit (44_control.md R133, 41_hysteresis.md R92). -/
def processTick (r : Analysis) (s : State) : State :=
  if admits s.cfg r.strength (hysteresis s.cfg r.strength s.cs) then
    match r.bit with
    | some b => admitBit b (observe r s)
    | none => observe r s
  else observe r s

/-- `TICK srate, lgfft`: checks in the order of 60_exceptions.md R160: IDLE (R134), operand legality (R74), then
the analyzer and the stages after it (44_control.md R133). -/
def execTick (srate lgfft : Nat) (s : State) : Host.Outcome State Fault Refusal :=
  if s.ds = .idle then .next s
  else if legalOperands s.cfg srate (fftSize lgfft) then
    match analyze s.cfg s.spectrum srate (fftSize lgfft) with
    | .ok r => .next (processTick r s)
    | .error a => .fault (.spectrumAddress a)
  else .next (raiseFault .badopd s)

/-- An illegal command word: `raise ILLCMD` and nothing else, in every `ds` (44_control.md R137). -/
def illegalCommand (s : State) : State := raiseFault .illcmd s

end Sys2Proof.Machine
end

