-- ==== Sys2Proof/Machine/Step.lean ====
section
/-! DEFINITION. One step: the core takes the next presented command, decodes it and runs it to completion
(spec/00_scope.md R2, R7). -/

namespace Sys2Proof.Machine

/-- A command word, decoded and run; an illegal word raises ILLCMD (60_exceptions.md R160 (1)). -/
def runWord (w : Word) (s : State) : Host.Outcome State Fault Refusal :=
  match decode w with
  | .ok i => exec i s
  | .error _ => .next (illegalCommand s)

/-- One step. With no command presented the block waits and nothing changes (70_reset_and_hazards.md R183;
log entry 2). -/
def step (s : State) : Host.Outcome State Fault Refusal :=
  match s.port with
  | [] => .next s
  | p :: rest => runWord p.word (takeCommand p rest s)

/-- The instruction with the given bits presented as the next command, over the spectrum content that stands
(log entry 3). -/
def State.withFetchWord (s : State) (nbits w : Nat) : State :=
  { s with port := ⟨tableWord nbits w, s.spectrum⟩ :: s.port }

end Sys2Proof.Machine
end

