-- ==== Sys2Proof/Machine/EventPort.lean ====
section
/-! DEFINITION. The words of the event port (spec/30_encoding.md R59, R60). The abstract events of State are
normative; the words are one rendering of them (spec/92_eei_decisions.md D23). -/

namespace Sys2Proof.Machine

/-- The bit code of an ANA word: `0b00` for bit 0, `0b01` for bit 1, `0b10` for null (30_encoding.md R59). -/
def anaCode : Option Bit → BitVec 2
  | some false => 0b00
  | some true => 0b01
  | none => 0b10

/-- The ANA word: `e[31:28] = 1`, `e[9:8]` the code, `e[7:0]` the strength (R59). -/
def anaWord (bit : Option Bit) (strength : Byte) : Word :=
  (1 : BitVec 4) ++ (0 : BitVec 18) ++ anaCode bit ++ strength

/-- The BIT word: `e[31:28] = 3`, `e[0] = b` (R59). -/
def bitWord (b : Bit) : Word := (3 : BitVec 4) ++ (0 : BitVec 27) ++ BitVec.ofBool b

/-- The DATA header: `e[31:28] = 4`, `e[27:0] = L` (R59). -/
def dataHeader (L : Nat) : Word := (4 : BitVec 4) ++ BitVec.ofNat 28 L

/-- A DATAW word: `e[31:28] = 5`, `e[11:8] = nvalid`, `e[7:0]` the bits, first bit in `e[7]`, the remaining low
bits 0 (R59, R60). -/
def dataWord (bits : BitSequence) : Word :=
  (5 : BitVec 4) ++ (0 : BitVec 16) ++ BitVec.ofNat 4 bits.length ++ packByte bits

/-- One DATAW word per started byte, `k = 0 .. ceil(L/8)-1`, each of `min(8, L - 8k)` bits (R60). -/
def dataWords (p : BitSequence) : List Word :=
  (List.range ((p.length + 7) / 8)).map fun k => dataWord ((p.drop (8 * k)).take 8)

/-- The words of one event, none for a DATA payload longer than `2^28 - 1` bits: "the port encoding is defined
only for frames within that limit" (R59; 93_implementation_defined.md U17). -/
def eventWords : Event → Option (List Word)
  | .ana bit strength => some [anaWord bit strength]
  | .sync => some [0x20000000]
  | .bit b => some [bitWord b]
  | .data p => if p.length < 2 ^ 28 then some (dataHeader p.length :: dataWords p) else none

/-- The words of an event list, in order. -/
def portWords : List Event → Option (List Word)
  | [] => some []
  | e :: rest =>
    match eventWords e, portWords rest with
    | some ws, some more => some (ws ++ more)
    | _, _ => none

end Sys2Proof.Machine
end

