-- ==== Sys2Proof/Machine/Wire.lean ====
section
/-! DEFINITION. The input language: the wire frame the block parses and the stimulus notation
(spec/30_encoding.md R56, R61, R62). -/

namespace Sys2Proof.Machine

/-- A byte as 8 bits, most significant bit first (20_memory.md R34). -/
def bitsOfByte (b : Byte) : BitSequence := (List.range 8).map fun j => b.getLsbD (7 - j)

/-- "each byte becomes 8 bits, MSB first, bytes concatenated in order" (20_memory.md R34). -/
def bitsOfBytes (bytes : List Byte) : BitSequence := bytes.flatMap bitsOfByte

/-- A frame on the wire: preamble, payload, terminator, first bit first (30_encoding.md R56). -/
def wireFrame (cfg : Config) (payload : BitSequence) : BitSequence :=
  cfg.preamble ++ payload ++ ones cfg.termLen

/-- A line `TICK srate, lgfft { a0: m0, ... }`, `START`, `STOP` or `NOP` of a stimulus program: the command word
and the spectrum, every bin not listed holding 0 (30_encoding.md R61). A line `.word` is a `Presentation` itself. -/
def stimulus (i : Instr) (cells : List (Nat × Byte)) : Presentation := ⟨encode i, Memory.fill cells⟩

/-- `TICKM m0, m1` (30_encoding.md R62). -/
def tickM (m0 m1 : Byte) : Presentation := stimulus (.tick 25600 8) [(12, m0), (22, m1)]

/-- `BIT0` or `BIT1` (30_encoding.md R62). -/
def bitStimulus (b : Bit) : Presentation := if b then tickM 50 200 else tickM 200 50

/-- `QUIET` (30_encoding.md R62). -/
def quiet : Presentation := tickM 0 0

/-- `BITS b0 b1 ... bk` (30_encoding.md R62). -/
def bitsStimulus (bits : BitSequence) : List Presentation := bits.map bitStimulus

end Sys2Proof.Machine
end

