-- ==== Sys2Proof/Safety.lean ====
section
/-! DEFINITION. The terms claims are made in: safe runs, the invariants of spec/10_state.md R20, and the feeding of
admitted bits and of ticks that carry bits (spec/42_sync.md R104, spec/70_reset_and_hazards.md R187). -/

namespace Sys2Proof

open Sys2Proof.Machine

/-- No fault bit is set: "a model should carry `flt = 0` as a premise of every claim about a run"
(60_exceptions.md R157). -/
abbrev FaultFree (s : State) : Prop := s.flt = 0

/-- The spectrum lists of the state are in their canonical form. -/
abbrev MemoryCanonical (s : State) : Prop :=
  Memory.wf s.spectrum = true ∧ ∀ p ∈ s.port, Memory.wf p.spectrum = true

/-- The invariants (a) to (e) of 10_state.md R20. The third clause of (e) is the type of `ds`; (f) is about two
states and is a statement of its own. -/
structure StateInvariant (s : State) : Prop where
  /-- (a) -/
  idle_empty : s.ds = .idle → s.win = [] ∧ s.pbuf = []
  /-- (b) -/
  syncing_no_payload : s.ds = .syncing → s.pbuf = [] ∧ s.win ≠ s.cfg.preamble
  /-- (c) -/
  receiving_no_window : s.ds = .receiving → s.win = []
  /-- (d) -/
  receiving_unterminated : s.ds = .receiving → s.cfg.guard < s.pbuf.length →
    lastn s.pbuf s.cfg.termLen ≠ ones s.cfg.termLen
  /-- (e), `plen ≤ PMAX` -/
  payload_fits : s.cfg.fits s.pbuf.length = true
  /-- (e), `len(win) ≤ WINLEN` -/
  window_fits : s.win.length ≤ s.cfg.winLen

/-- The bits admitted one after the other (43_frame.md R111). -/
def feed (bits : BitSequence) (s : State) : State := bits.foldl (fun t b => admitBit b t) s

/-- The events other than ANA: what the stages after the analyzer emitted. -/
def decoderEvents (events : List Event) : List Event :=
  events.filter fun e =>
    match e with
    | .ana _ _ => false
    | .sync => true
    | .bit _ => true
    | .data _ => true

/-- The bin address `a` lies in the carrier window, over the integers (40_analyzer.md R73). -/
abbrev InWindow (W : Window) (a : ℤ) : Prop :=
  (W.centre : ℤ) - W.radius ≤ a ∧ a ≤ (W.centre : ℤ) + W.radius

/-- The legality of the operands in R74's first words: `S ≥ 1` and every address of `W0` and `W1` lies in
`0 .. nbins-1` (40_analyzer.md R74). -/
def WindowsInSpectrum (cfg : Config) (S N : Nat) : Prop :=
  1 ≤ S ∧ ∀ a : ℤ, InWindow (window0 cfg S N) a ∨ InWindow (window1 cfg S N) a →
    0 ≤ a ∧ a ≤ ((N / 2 : Nat) : ℤ) - 1

/-- `m` is the maximum of the magnitudes of the window's bins (40_analyzer.md R76). -/
def IsWindowMaximum (X : Memory) (W : Window) (m : Byte) : Prop :=
  (∃ a : Nat, InWindow W a ∧ Memory.read X a = m) ∧ ∀ a : Nat, InWindow W a → Memory.read X a ≤ m

/-- The next step of the state is a processed tick with the analyzer's result `r`: the command presented is a TICK,
`ds` is not IDLE and the operands are legal (40_analyzer.md R74, 44_control.md R134). -/
def ProcessesTick (s : State) (r : Analysis) : Prop :=
  ∃ p rest srate lgfft, s.port = p :: rest ∧ decode p.word = .ok (.tick srate lgfft) ∧ s.ds ≠ .idle ∧
    WindowsInSpectrum s.cfg srate (2 ^ lgfft) ∧ analyze s.cfg p.spectrum srate (2 ^ lgfft) = .ok r

/-- The presence state after a strength in the two assignments of R90, the second one winning
(41_hysteresis.md R90). -/
def presenceAfter (cfg : Config) (strength : Byte) (cs : Bit) : Bit :=
  let cs1 := if cfg.high < strength then true else cs
  if strength < cfg.low then false else cs1

/-- The presentation is a TICK with legal operands whose spectrum gives the bit `b` at a strength above `HIGH` and
above `MINDET`; with `LOW ≤ HIGH` it is admitted whatever `cs` was (41_hysteresis.md R90, R92). -/
def CarriesBit (cfg : Config) (p : Presentation) (b : Bit) : Prop :=
  ∃ srate lgfft r, decode p.word = .ok (.tick srate lgfft) ∧ legalOperands cfg srate (fftSize lgfft) ∧
    analyze cfg p.spectrum srate (fftSize lgfft) = .ok r ∧ r.bit = some b ∧
    cfg.minDet < r.strength ∧ cfg.high < r.strength

/-- The payload restrictions of 70_reset_and_hazards.md R188: with its terminator the payload is longer than
`GUARD`; it holds no run of `TERMLEN` ones that ends beyond `GUARD`; its last bit is 0. -/
def DeliverablePayload (cfg : Config) (p : BitSequence) : Prop :=
  cfg.guard < p.length + cfg.termLen ∧
    (∀ n, cfg.guard < n → n ≤ p.length → lastn (p.take n) cfg.termLen ≠ ones cfg.termLen) ∧
    p.getLast? = some false

end Sys2Proof
end

