-- ==== Sys2Proof/Certificates/Slice0/Obligations.lean ====
section
/-! DEFINITION. The statements for the provers, in the order of OBLIGATIONS.json. "Every configuration" means every
`s.cfg`: the parameters, `PMAX` among them, are part of the state. -/

open Sys2Proof Sys2Proof.Machine

/-! ## Encodings of commands -/

/-- For every well-formed command, decoding its encoding gives it back, at every operand value (30_encoding.md
R52, R53, R55). -/
def Obligations.DecodeEncodeRoundTrip : Prop :=
  ∀ i : Instr, i.WellFormed → decode (encode i) = .ok i

/-- A word that decodes to a command is the encoding of that command, which is well formed: no other word stands
for it and no bit is ignored (30_encoding.md R55). -/
def Obligations.DecodedWordIsItsEncoding : Prop :=
  ∀ (w : Word) (i : Instr), decode w = .ok i → i.WellFormed ∧ encode i = w

/-- Which words are which command, in the arithmetic of R52 and R53, and which are ILLEGAL (30_encoding.md R52,
R53, R55). -/
def Obligations.DecodeFollowsTheCommandWords : Prop :=
  ∀ w : Word,
    (decode w = .ok .nop ↔ w = 0x00000000) ∧
    (decode w = .ok .start ↔ w = 0x40000000) ∧
    (decode w = .ok .stop ↔ w = 0x80000000) ∧
    (∀ srate lgfft : Nat, decode w = .ok (.tick srate lgfft) ↔
      srate < 2 ^ 24 ∧ lgfft < 2 ^ 5 ∧ w.toNat = 0xC0000000 + lgfft * 0x01000000 + srate) ∧
    ((∃ e, decode w = .error e) ↔
      w.toNat / 2 ^ 29 % 2 = 1 ∨ (w.toNat / 2 ^ 30 ≠ 3 ∧ w.toNat % 2 ^ 29 ≠ 0))

/-- Words written out from R51 to R53 decode to the command they stand for (95_test_vectors.md 2.1). -/
def Obligations.SampleWordsDecode : Prop :=
  decode 0b00000000000000000000000000000000 = .ok .nop ∧
  decode 0b01000000000000000000000000000000 = .ok .start ∧
  decode 0b10000000000000000000000000000000 = .ok .stop ∧
  decode 0b11001011000000001010110001000100 = .ok (.tick 44100 11) ∧
  decode 0b11001000000000000110010000000000 = .ok (.tick 25600 8) ∧
  (∃ e, decode 0b11101000000000000110010000000000 = .error e) ∧
  (∃ e, decode 0b01000001000000000000000000000000 = .error e)

/-! ## The step -/

/-- A step takes the oldest presented command, with the spectrum presented with it, and runs the command its word
decodes to (00_scope.md R2, 20_memory.md R38). That the command is taken from the port and its spectrum becomes the
spectrum field is about the model's own fields (log entries 1 and 4). -/
def Obligations.StepRunsTheDecodedCommand : Prop :=
  ∀ (s : State) (p : Presentation) (rest : List Presentation) (i : Instr),
    s.port = p :: rest → decode p.word = .ok i →
    step s = exec i { s with port := rest, spectrum := p.spectrum }

/-- An illegal word sets ILLCMD and does nothing else, in every detector state (44_control.md R137). The clauses
`port := rest` and `spectrum := p.spectrum`, the taking of the command, are the model's choice (log entries 1 and 4). -/
def Obligations.IllegalWordRaisesOnlyIllcmd : Prop :=
  ∀ (s : State) (p : Presentation) (rest : List Presentation) (e : IllegalWord),
    s.port = p :: rest → decode p.word = .error e →
    step s = .next { s with port := rest, spectrum := p.spectrum, flt := s.flt ||| 0b001 }

/-- With no command presented nothing changes (the model's reading of 70_reset_and_hazards.md R183, log entry 2). -/
def Obligations.NoCommandNothingChanges : Prop :=
  ∀ s : State, s.port = [] → step s = .next s

/-- No command makes the block stop accepting commands: every step of every state ends in a next state
(00_scope.md R8, 60_exceptions.md R157). -/
def Obligations.NoCommandStopsTheBlock : Prop :=
  ∀ s : State, ∃ t, step s = .next t

/-- A step depends on the spectrum presented with its command, not on the content of any earlier one
(20_memory.md R38, 10_state.md R18; that the state has a port and a spectrum field is the model's choice, log
entries 1 and 4). -/
def Obligations.StepIgnoresEarlierSpectra : Prop :=
  ∀ (s : State) (X : Memory), s.port ≠ [] → step { s with spectrum := X } = step s

/-! ## NOP, START, STOP -/

/-- NOP is the word 0x00000000 and changes nothing, in every detector state (44_control.md R130). -/
def Obligations.NopChangesNothing : Prop :=
  encode .nop = 0x00000000 ∧ ∀ s : State, exec .nop s = .next s

/-- START is the word 0x40000000, enters SYNCING from IDLE and does nothing in the other states (44_control.md R131). -/
def Obligations.StartEntersSyncingFromIdle : Prop :=
  encode .start = 0x40000000 ∧ ∀ s : State,
    (s.ds = .idle → exec .start s = .next { s with ds := .syncing, win := [], pbuf := [] }) ∧
    (s.ds ≠ .idle → exec .start s = .next s)

/-- STOP is the word 0x80000000, enters IDLE from every state, discards window and payload without an event, and is
idempotent (44_control.md R132). -/
def Obligations.StopEntersIdle : Prop :=
  encode .stop = 0x80000000 ∧
  (∀ s : State, exec .stop s = .next { s with ds := .idle, win := [], pbuf := [] }) ∧
  ∀ s t : State, exec .stop s = .next t → exec .stop t = .next t

/-- A STOP and a START return the block to SYNCING with `cs` and `flt` kept (70_reset_and_hazards.md R181). -/
def Obligations.StopStartKeepsPresenceAndFaults : Prop :=
  ∀ s t : State, exec .stop s = .next t →
    exec .start t = .next { s with ds := .syncing, win := [], pbuf := [] }

/-! ## TICK: what it does before the stages -/

/-- TICK in IDLE does nothing at all, whatever its operands (44_control.md R134). -/
def Obligations.TickInIdleChangesNothing : Prop :=
  ∀ (s : State) (srate lgfft : Nat), s.ds = .idle → exec (.tick srate lgfft) s = .next s

/-- The operands are legal when every window address lies in the spectrum, that is when the four bounds hold; TICK
with illegal operands outside IDLE sets BADOPD and changes nothing else (40_analyzer.md R74). -/
def Obligations.IllegalOperandsRaiseOnlyBadopd : Prop :=
  (∀ (cfg : Config) (S N : Nat), WindowsInSpectrum cfg S N ↔
    1 ≤ S ∧ 0 ≤ (binOf cfg.f0 N S : ℤ) - radius cfg N S ∧ 0 ≤ (binOf cfg.f1 N S : ℤ) - radius cfg N S ∧
      (binOf cfg.f0 N S : ℤ) + radius cfg N S ≤ ((N / 2 : Nat) : ℤ) - 1 ∧
      (binOf cfg.f1 N S : ℤ) + radius cfg N S ≤ ((N / 2 : Nat) : ℤ) - 1) ∧
  ∀ (s : State) (srate lgfft : Nat), s.ds ≠ .idle → ¬ WindowsInSpectrum s.cfg srate (2 ^ lgfft) →
    exec (.tick srate lgfft) s = .next { s with flt := s.flt ||| 0b010 }

/-- A TICK with legal operands outside IDLE is processed: its magnitudes are the maxima of the two windows, its
strength the larger one, its bit as R78 decides, and it completes (40_analyzer.md R76, R77, R78). -/
def Obligations.LegalTickAnalyzesItsWindows : Prop :=
  ∀ (s : State) (srate lgfft : Nat), s.ds ≠ .idle → WindowsInSpectrum s.cfg srate (2 ^ lgfft) →
    ∃ r : Analysis, analyze s.cfg s.spectrum srate (2 ^ lgfft) = .ok r ∧
      IsWindowMaximum s.spectrum (window0 s.cfg srate (2 ^ lgfft)) r.mag0 ∧
      IsWindowMaximum s.spectrum (window1 s.cfg srate (2 ^ lgfft)) r.mag1 ∧
      r.strength.toNat = max r.mag0.toNat r.mag1.toNat ∧
      (r.strength ≤ s.cfg.minDet → r.bit = none) ∧
      (s.cfg.minDet < r.strength → r.mag0 < r.mag1 → r.bit = some true) ∧
      (s.cfg.minDet < r.strength → r.mag1 ≤ r.mag0 → r.bit = some false) ∧
      exec (.tick srate lgfft) s = .next (processTick r s)

/-! ## TICK: one statement for each row of the write table (10_state.md R22) of a processed tick. Each gives the
whole next state, so it is the frame of that row too. `analyze … = .ok r` names the tick's analysis and
`presenceAfter` the presence state after the update of R90. -/

/-- Every processed tick emits ANA first, then updates `cs` by R90 whatever its bit, and admits its bit exactly when
the strength is above MINDET and the updated `cs` is 1: to the SyncDetector in SYNCING, to the FrameDecoder in
RECEIVING; otherwise nothing more happens (40_analyzer.md R81, 41_hysteresis.md R90, R92). -/
def Obligations.ProcessedTickUpdatesPresenceThenAdmits : Prop :=
  ∀ (s u : State) (srate lgfft : Nat) (r : Analysis) (c : Bit), s.ds ≠ .idle →
    WindowsInSpectrum s.cfg srate (2 ^ lgfft) → analyze s.cfg s.spectrum srate (2 ^ lgfft) = .ok r →
    c = presenceAfter s.cfg r.strength s.cs →
    u = { s with cs := c, events := s.events ++ [.ana r.bit r.strength] } →
    (¬ (s.cfg.minDet < r.strength ∧ c = true) → exec (.tick srate lgfft) s = .next u) ∧
    (s.cfg.minDet < r.strength → c = true → ∃ b, r.bit = some b ∧
      (s.ds = .syncing → exec (.tick srate lgfft) s = .next (syncDetector b u)) ∧
      (s.ds = .receiving → exec (.tick srate lgfft) s = .next (frameDecoder b u)))

/-- An admitted bit in SYNCING that does not complete the preamble is appended to the window, the oldest bit
evicted beyond WINLEN, and nothing else happens (42_sync.md R101, R103). -/
def Obligations.AdmittedBitRollsTheWindow : Prop :=
  ∀ (s : State) (srate lgfft : Nat) (r : Analysis) (w : BitSequence), s.ds = .syncing →
    WindowsInSpectrum s.cfg srate (2 ^ lgfft) → analyze s.cfg s.spectrum srate (2 ^ lgfft) = .ok r →
    s.cfg.minDet < r.strength → presenceAfter s.cfg r.strength s.cs = true →
    w = (if s.cfg.winLen < s.win.length + 1 then (s.win ++ [decide (r.mag0 < r.mag1)]).tail
      else s.win ++ [decide (r.mag0 < r.mag1)]) →
    w ≠ s.cfg.preamble →
    exec (.tick srate lgfft) s =
      .next { s with cs := true, win := w, events := s.events ++ [.ana r.bit r.strength] }

/-- The lock: when the window becomes the preamble, `ds` becomes RECEIVING, window and payload are cleared and SYNC
is emitted after ANA; the bit is not put into the payload (42_sync.md R102). -/
def Obligations.PreambleLocks : Prop :=
  ∀ (s : State) (srate lgfft : Nat) (r : Analysis), s.ds = .syncing →
    WindowsInSpectrum s.cfg srate (2 ^ lgfft) → analyze s.cfg s.spectrum srate (2 ^ lgfft) = .ok r →
    s.cfg.minDet < r.strength → presenceAfter s.cfg r.strength s.cs = true →
    (if s.cfg.winLen < s.win.length + 1 then (s.win ++ [decide (r.mag0 < r.mag1)]).tail
      else s.win ++ [decide (r.mag0 < r.mag1)]) = s.cfg.preamble →
    exec (.tick srate lgfft) s =
      .next { s with
        ds := .receiving, cs := true, win := [], pbuf := []
        events := s.events ++ [.ana r.bit r.strength, .sync] }

/-- An admitted bit in RECEIVING with room is appended with a BIT event; if the payload is then longer than GUARD and
its last TERMLEN bits are all 1, the payload without them is handed over as DATA and the block returns to SYNCING
with both sequences empty, otherwise nothing more happens (43_frame.md R112, R114, R115). -/
def Obligations.AdmittedBitIsAppendedAndTested : Prop :=
  ∀ (s : State) (srate lgfft : Nat) (r : Analysis) (b : Bit), s.ds = .receiving →
    WindowsInSpectrum s.cfg srate (2 ^ lgfft) → analyze s.cfg s.spectrum srate (2 ^ lgfft) = .ok r →
    s.cfg.minDet < r.strength → presenceAfter s.cfg r.strength s.cs = true → b = decide (r.mag0 < r.mag1) →
    (∀ m, s.cfg.pmax = some m → s.pbuf.length < m) →
    (¬ (s.cfg.guard < s.pbuf.length + 1 ∧ lastn (s.pbuf ++ [b]) s.cfg.termLen = ones s.cfg.termLen) →
      exec (.tick srate lgfft) s =
        .next { s with
          cs := true, pbuf := s.pbuf ++ [b], events := s.events ++ [.ana r.bit r.strength, .bit b] }) ∧
    (s.cfg.guard < s.pbuf.length + 1 → lastn (s.pbuf ++ [b]) s.cfg.termLen = ones s.cfg.termLen →
      exec (.tick srate lgfft) s =
        .next { s with
          ds := .syncing, cs := true, win := [], pbuf := []
          events := s.events ++ [.ana r.bit r.strength, .bit b,
            .data ((s.pbuf ++ [b]).take (s.pbuf.length + 1 - s.cfg.termLen))] })

/-- An admitted bit in RECEIVING with the payload buffer full sets OVF, is dropped with the frame, and emits nothing
after ANA (43_frame.md R113). -/
def Obligations.FullBufferOverflows : Prop :=
  ∀ (s : State) (srate lgfft : Nat) (r : Analysis), s.ds = .receiving →
    WindowsInSpectrum s.cfg srate (2 ^ lgfft) → analyze s.cfg s.spectrum srate (2 ^ lgfft) = .ok r →
    s.cfg.minDet < r.strength → presenceAfter s.cfg r.strength s.cs = true →
    s.cfg.pmax = some s.pbuf.length →
    exec (.tick srate lgfft) s =
      .next { s with
        ds := .syncing, cs := true, win := [], pbuf := [], flt := s.flt ||| 0b100
        events := s.events ++ [.ana r.bit r.strength] }

/-! ## The analyzer -/

/-- The bin and radius computations are round half up of the exact rational `f × N / S`: `floor(q + 1/2)`
(40_analyzer.md R71, R72, R75). -/
def Obligations.BinMappingRoundsHalfUp : Prop :=
  ∀ (cfg : Config) (N S : Nat), 1 ≤ S →
    ((window0 cfg S N).centre : ℤ) = ⌊(cfg.f0 : ℚ) * N / S + 1 / 2⌋ ∧
    ((window1 cfg S N).centre : ℤ) = ⌊(cfg.f1 : ℚ) * N / S + 1 / 2⌋ ∧
    ((window0 cfg S N).radius : ℤ) = ⌊(cfg.tol : ℚ) * N / S + 1 / 2⌋ ∧
    (window1 cfg S N).radius = (window0 cfg S N).radius

/-- A bit is decided exactly when the strength is above MINDET, and it names the window of the strength
(40_analyzer.md R80). -/
def Obligations.AnalysisProperties : Prop :=
  ∀ (cfg : Config) (X : Memory) (S N : Nat) (r : Analysis), analyze cfg X S N = .ok r →
    (r.bit ≠ none ↔ cfg.minDet < r.strength) ∧
    (r.bit = some true → r.mag1 = r.strength ∧ r.mag0 < r.strength) ∧
    (r.bit = some false → r.mag0 = r.strength ∧ r.mag1 ≤ r.strength)

/-- Where the two windows coincide no tick gives bit 1 (40_analyzer.md R73). -/
def Obligations.CoincidingWindowsNeverGiveOne : Prop :=
  ∀ (cfg : Config) (X : Memory) (S N : Nat) (r : Analysis), window0 cfg S N = window1 cfg S N →
    analyze cfg X S N = .ok r → r.mag1 = r.mag0 ∧ r.bit ≠ some true

/-- When the tolerance is not above either carrier, as with the document's values, the lower ends of both windows
are never below bin 0 (40_analyzer.md R74). -/
def Obligations.WindowsNeverReachBelowZero : Prop :=
  ∀ (cfg : Config) (N S : Nat), cfg.tol ≤ cfg.f0 → cfg.tol ≤ cfg.f1 → 1 ≤ S →
    ∀ a : ℤ, InWindow (window0 cfg S N) a ∨ InWindow (window1 cfg S N) a → 0 ≤ a

/-- A tick reads no bin outside its two windows: two spectra that agree there give the same result
(20_memory.md R36). -/
def Obligations.TickReadsOnlyItsWindows : Prop :=
  ∀ (s t : State) (X : Memory) (srate lgfft : Nat),
    (∀ a : Nat, InWindow (window0 s.cfg srate (2 ^ lgfft)) a ∨ InWindow (window1 s.cfg srate (2 ^ lgfft)) a →
      Memory.read X a = Memory.read s.spectrum a) →
    exec (.tick srate lgfft) s = .next t →
    exec (.tick srate lgfft) { s with spectrum := X } = .next { t with spectrum := X }

/-! ## The hysteresis gate -/

/-- The four strength ranges of the document's thresholds, LOW = 80, MINDET = 90, HIGH = 140: what the presence
state becomes and whether a bit is admitted (41_hysteresis.md R93). -/
def Obligations.StrengthRangesOfTheGate : Prop :=
  ∀ (s t : State) (srate lgfft : Nat) (r : Analysis),
    s.ds ≠ .idle → s.cfg.low = 80 → s.cfg.minDet = 90 → s.cfg.high = 140 →
    WindowsInSpectrum s.cfg srate (2 ^ lgfft) → analyze s.cfg s.spectrum srate (2 ^ lgfft) = .ok r →
    exec (.tick srate lgfft) s = .next t →
    (r.strength ≤ 79 → t = { s with cs := false, events := s.events ++ [.ana none r.strength] }) ∧
    (80 ≤ r.strength → r.strength ≤ 90 → t = { s with events := s.events ++ [.ana none r.strength] }) ∧
    (91 ≤ r.strength → r.strength ≤ 140 → t.cs = s.cs ∧
      (s.cs = false → t = { s with events := s.events ++ [.ana r.bit r.strength] })) ∧
    (141 ≤ r.strength → t.cs = true) ∧
    (91 ≤ r.strength → t.cs = true →
      t = admitBit (decide (r.mag0 < r.mag1))
        { s with cs := true, events := s.events ++ [.ana r.bit r.strength] })

/-- From a state with `cs = 0`, as reset leaves it, no bit is admitted while no processed tick of the run is stronger
than HIGH: the presence state stays 0, empty sequences stay empty and the only events are ANA. A TICK in IDLE or with
illegal operands, or presented after the run's `k` commands, is not asked about (70_reset_and_hazards.md R184; the
port of a run is the model's, log entry 1). -/
def Obligations.NothingAdmittedBeforeAStrongTick : Prop :=
  ∀ (k : Nat) (s t : State), s.cs = false →
    (∀ (j : Nat) (u : State) (r : Analysis), j < k → Host.Core.run Sys2Proof.core j s = .next u →
      ProcessesTick u r → r.strength ≤ s.cfg.high) →
    Host.Core.run Sys2Proof.core k s = .next t →
    t.cs = false ∧ decoderEvents t.events = decoderEvents s.events ∧
      (s.win = [] → t.win = []) ∧ (s.pbuf = [] → t.pbuf = []) ∧ (t.ds = .receiving → s.ds = .receiving)

/-! ## The SyncDetector -/

/-- While no match occurs, the window holds the last WINLEN bits admitted since SYNCING was entered with an empty
window (42_sync.md R101). -/
def Obligations.WindowHoldsTheLastAdmittedBits : Prop :=
  ∀ (s : State) (bits : BitSequence), s.cfg.WellFormed → s.ds = .syncing → s.win = [] →
    (∀ n, n ≤ bits.length → lastn (bits.take n) s.cfg.winLen ≠ s.cfg.preamble) →
    feed bits s = { s with win := lastn bits s.cfg.winLen }

/-- The lock happens at the first admitted bit at which the last WINLEN admitted bits are the preamble, at any
offset and whatever preceded it (42_sync.md R104). -/
def Obligations.LockAtTheFirstMatch : Prop :=
  ∀ (s : State) (bits : BitSequence) (b : Bit), s.cfg.WellFormed → s.ds = .syncing → s.win = [] →
    (∀ n, n ≤ bits.length → lastn (bits.take n) s.cfg.winLen ≠ s.cfg.preamble) →
    lastn (bits ++ [b]) s.cfg.winLen = s.cfg.preamble →
    feed (bits ++ [b]) s =
      { s with ds := .receiving, win := [], pbuf := [], events := s.events ++ [.sync] }

/-! ## The FrameDecoder -/

/-- A frame is cut at the first length above GUARD at which the last TERMLEN appended bits are all 1, wherever they
come from; every appended bit gave a BIT event, and what precedes the run is handed over (43_frame.md R117). -/
def Obligations.FrameIsCutAtTheFirstRunOfOnes : Prop :=
  ∀ (s : State) (bits : BitSequence), s.ds = .receiving → s.pbuf = [] → s.cfg.fits bits.length = true →
    (∀ n, n < bits.length → s.cfg.guard < n → lastn (bits.take n) s.cfg.termLen ≠ ones s.cfg.termLen) →
    (s.cfg.guard < bits.length → lastn bits s.cfg.termLen = ones s.cfg.termLen →
      feed bits s =
        { s with
          ds := .syncing, win := [], pbuf := []
          events := s.events ++ bits.map Event.bit ++ [.data (bits.take (bits.length - s.cfg.termLen))] }) ∧
    (¬ (s.cfg.guard < bits.length ∧ lastn bits s.cfg.termLen = ones s.cfg.termLen) →
      feed bits s = { s with pbuf := bits, events := s.events ++ bits.map Event.bit })

/-- A whole frame is delivered: from SYNCING with an empty window, one strong tick for each bit of preamble, payload
and terminator, and a payload that R188 allows and PMAX holds, the run ends in SYNCING with both sequences empty,
and the events other than ANA are SYNC, one BIT for each payload and terminator bit, and the payload as DATA
(70_reset_and_hazards.md R187, R188; 43_frame.md R115; that the rest of the port is left is about the model's own
field, log entry 1). -/
def Obligations.WholeFrameIsDelivered : Prop :=
  ∀ (s : State) (p : BitSequence) (frame rest : List Presentation), s.cfg.WellFormed →
    s.ds = .syncing → s.win = [] → s.port = frame ++ rest →
    List.Forall₂ (CarriesBit s.cfg) frame (wireFrame s.cfg p) → DeliverablePayload s.cfg p →
    s.cfg.fits (p.length + s.cfg.termLen) = true →
    ∃ t : State, Host.Core.run Sys2Proof.core frame.length s = .next t ∧
      t.ds = .syncing ∧ t.win = [] ∧ t.pbuf = [] ∧ t.cs = true ∧ t.flt = s.flt ∧ t.cfg = s.cfg ∧ t.port = rest ∧
      decoderEvents t.events = decoderEvents s.events ++
        (.sync :: (p ++ ones s.cfg.termLen).map Event.bit ++ [.data p])

/-! ## Events -/

/-- One command emits one of the lists `[]`, `[ANA]`, `[ANA, SYNC]`, `[ANA, BIT]`, `[ANA, BIT, DATA]`, and a DATA
payload has at least GUARD + 1 - TERMLEN bits (44_control.md R133, 43_frame.md R116). -/
def Obligations.EventListsOfOneCommand : Prop :=
  ∀ (i : Instr) (s t : State), exec i s = .next t →
    ∃ new : List Event, t.events = s.events ++ new ∧
      (new = [] ∨ (∃ o m, new = [.ana o m]) ∨ (∃ o m, new = [.ana o m, .sync]) ∨
        (∃ o m b, new = [.ana o m, .bit b]) ∨
        ∃ o m b p, new = [.ana o m, .bit b, .data p] ∧ s.cfg.guard + 1 ≤ p.length + s.cfg.termLen)

/-- In IDLE, as a STOP leaves it, and until a START is taken, no command emits any event or changes anything but the
fault register (44_control.md R136, 60_exceptions.md R162; the port of a run is the model's, log entry 1). -/
def Obligations.NoEventsUntilStart : Prop :=
  ∀ (k : Nat) (s t : State), s.ds = .idle → (∀ p ∈ s.port.take k, decode p.word ≠ .ok .start) →
    s.win = [] → s.pbuf = [] → Host.Core.run Sys2Proof.core k s = .next t →
    t.events = s.events ∧ t.ds = .idle ∧ t.cs = s.cs ∧ t.win = [] ∧ t.pbuf = [] ∧ t.cfg = s.cfg

/-- The words of each event and their fields: one word for ANA, SYNC and BIT, a header and the data words for DATA,
none for a payload beyond the header's limit (30_encoding.md R59). What the data words carry is
`DataWordsCarryThePayload`. -/
def Obligations.EventWordFields : Prop :=
  (∀ (o : Option Bit) (m : Byte), (anaWord o m).toNat =
    1 * 2 ^ 28 + (match o with | some false => 0 | some true => 1 | none => 2) * 2 ^ 8 + m.toNat) ∧
  (∀ (o : Option Bit) (m : Byte), eventWords (.ana o m) = some [anaWord o m]) ∧
  eventWords .sync = some [0x20000000] ∧
  (∀ b : Bit, eventWords (.bit b) = some [bitWord b]) ∧
  (∀ p : BitSequence, p.length < 2 ^ 28 →
    eventWords (.data p) = some (dataHeader p.length :: dataWords p)) ∧
  (∀ p : BitSequence, 2 ^ 28 ≤ p.length → eventWords (.data p) = none) ∧
  (∀ b : Bit, (bitWord b).toNat = 3 * 2 ^ 28 + b.toNat) ∧
  (∀ L : Nat, L < 2 ^ 28 → (dataHeader L).toNat = 4 * 2 ^ 28 + L) ∧
  (∀ bits : BitSequence, bits.length ≤ 8 →
    (dataWord bits).toNat = 5 * 2 ^ 28 + bits.length * 2 ^ 8 + (packByte bits).toNat)

/-- The port encoding is injective on event lists (30_encoding.md R59). -/
def Obligations.EventPortIsInjective : Prop :=
  ∀ (es fs : List Event) (ws : List Word), portWords es = some ws → portWords fs = some ws → es = fs

/-- The DATAW words with `nvalid = 8` are exactly the bytes of the byte view, in order (30_encoding.md R60). -/
def Obligations.FullDataWordsAreTheByteView : Prop :=
  ∀ p : BitSequence,
    ((dataWords p).filter fun w => w.extractLsb 11 8 == (8 : BitVec 4)).map (fun w => w.extractLsb 7 0) = byteView p

/-- The byte view has `len(p) div 8` bytes, byte `k` being the sum of `p[8k + j] × 2^(7 - j)` over `j = 0..7`: the
grouping is anchored at `p[0]` and the trailing bits are discarded (43_frame.md R118). -/
def Obligations.ByteViewGroupsFromTheFirstBit : Prop :=
  ∀ p : BitSequence, (byteView p).length = p.length / 8 ∧
    ∀ k, k < p.length / 8 → ((byteView p)[k]?).map BitVec.toNat =
      some (∑ j ∈ Finset.range 8, (p[8 * k + j]?.getD false).toNat * 2 ^ (7 - j))

/-- The byte view of bytes sent most significant bit first gives the bytes back, and trailing bits that do not
complete a byte are discarded (43_frame.md R118, 20_memory.md R34). -/
def Obligations.ByteViewRecoversTheBytes : Prop :=
  ∀ (bytes : List Byte) (tail : BitSequence), tail.length < 8 → byteView (bitsOfBytes bytes ++ tail) = bytes

/-- `peakFreq` is F1 for bit 1, F0 for bit 0, and has no value for null (40_analyzer.md R79). -/
def Obligations.PeakFrequencyOfABit : Prop :=
  ∀ cfg : Config, peakFreq cfg (some true) = some cfg.f1 ∧ peakFreq cfg (some false) = some cfg.f0 ∧
    peakFreq cfg none = none

/-! ## The state machine, faults and frames over all commands -/

/-- The only transitions of the detector state and their causes (44_control.md R135). -/
def Obligations.DetectorTransitions : Prop :=
  ∀ s t : State, step s = .next t → t.ds ≠ s.ds →
    ∃ p rest, s.port = p :: rest ∧
      ((s.ds = .idle ∧ decode p.word = .ok .start ∧ t.ds = .syncing) ∨
       (decode p.word = .ok .stop ∧ t.ds = .idle) ∨
       ∃ srate lgfft r b, decode p.word = .ok (.tick srate lgfft) ∧
         WindowsInSpectrum s.cfg srate (2 ^ lgfft) ∧ analyze s.cfg p.spectrum srate (2 ^ lgfft) = .ok r ∧
         r.bit = some b ∧ s.cfg.minDet < r.strength ∧ presenceAfter s.cfg r.strength s.cs = true ∧
         ((s.ds = .syncing ∧ pushWindow s.cfg s.win b = s.cfg.preamble ∧ t.ds = .receiving) ∨
          (s.ds = .receiving ∧ s.cfg.fits (s.pbuf.length + 1) = true ∧ terminated s.cfg (s.pbuf ++ [b]) ∧
            t.ds = .syncing) ∨
          (s.ds = .receiving ∧ s.cfg.fits (s.pbuf.length + 1) = false ∧ t.ds = .syncing)))

/-- The presence state is written only by the hysteresis update of a processed tick (10_state.md R11). -/
def Obligations.PresenceWrittenOnlyByProcessedTicks : Prop :=
  ∀ (i : Instr) (s t : State), exec i s = .next t → t.cs ≠ s.cs →
    s.ds ≠ .idle ∧ ∃ srate lgfft r, i = .tick srate lgfft ∧ WindowsInSpectrum s.cfg srate (2 ^ lgfft) ∧
      analyze s.cfg s.spectrum srate (2 ^ lgfft) = .ok r ∧ t.cs = presenceAfter s.cfg r.strength s.cs

/-- No command writes the configuration, the spectrum space or the commands still presented (10_state.md R12,
20_memory.md R30, R36). The last clause's field, the port, is the model's own (log entry 1): it says in the model's
terms that the presented commands are the host's (00_scope.md R2). -/
def Obligations.CommandsLeaveTheHostsSideAlone : Prop :=
  ∀ (i : Instr) (s t : State), exec i s = .next t →
    t.cfg = s.cfg ∧ t.port = s.port ∧ ∀ a : Nat, Memory.read t.spectrum a = Memory.read s.spectrum a

/-- A bit of `flt` once 1 stays 1 (10_state.md R15, R20 (f)). -/
def Obligations.FaultBitsAreSticky : Prop :=
  ∀ s t : State, step s = .next t → s.flt &&& t.flt = s.flt

/-- No rule reads `flt`: whatever it holds, the same step is made and the same bits are raised
(10_state.md R15, 60_exceptions.md R157). -/
def Obligations.FaultBitsChangeNothing : Prop :=
  ∀ s : State, ∃ (t : State) (raised : BitVec 3), ∀ f : BitVec 3,
    step { s with flt := f } = .next { t with flt := f ||| raised }

/-- Each fault bit has exactly its cause, and a command raises at most one (60_exceptions.md R155, R160). -/
def Obligations.CauseOfEachFaultBit : Prop :=
  ∀ s t : State, FaultFree s → step s = .next t →
    (t.flt = 0b001 ↔ ∃ p rest e, s.port = p :: rest ∧ decode p.word = .error e) ∧
    (t.flt = 0b010 ↔ ∃ p rest srate lgfft, s.port = p :: rest ∧ decode p.word = .ok (.tick srate lgfft) ∧
      s.ds ≠ .idle ∧ ¬ WindowsInSpectrum s.cfg srate (2 ^ lgfft)) ∧
    (t.flt = 0b100 ↔ ∃ p rest srate lgfft r, s.port = p :: rest ∧ decode p.word = .ok (.tick srate lgfft) ∧
      s.ds = .receiving ∧ WindowsInSpectrum s.cfg srate (2 ^ lgfft) ∧
      analyze s.cfg p.spectrum srate (2 ^ lgfft) = .ok r ∧ s.cfg.minDet < r.strength ∧
      presenceAfter s.cfg r.strength s.cs = true ∧ s.cfg.fits (s.pbuf.length + 1) = false) ∧
    (t.flt = 0b000 ∨ t.flt = 0b001 ∨ t.flt = 0b010 ∨ t.flt = 0b100)

/-! ## Reset, status and invariants -/

/-- The state after reset, for every configuration, and the parameter values `State.reset` has, `PMAX` apart
(10_state.md R21). -/
def Obligations.ResetState : Prop :=
  (∀ cfg : Config, (State.resetWith cfg).ds = .idle ∧ (State.resetWith cfg).cs = false ∧
    (State.resetWith cfg).win = [] ∧ (State.resetWith cfg).pbuf = [] ∧ (State.resetWith cfg).flt = 0b000 ∧
    (State.resetWith cfg).cfg = cfg) ∧
  State.reset.ds = .idle ∧ State.reset.cs = false ∧ State.reset.win = [] ∧ State.reset.pbuf = [] ∧
  State.reset.flt = 0b000 ∧
  State.reset.cfg.high = 140 ∧ State.reset.cfg.low = 80 ∧ State.reset.cfg.minDet = 90 ∧
  State.reset.cfg.f0 = 1200 ∧ State.reset.cfg.f1 = 2200 ∧ State.reset.cfg.tol = 200 ∧
  State.reset.cfg.preamble = [true, false, true, false, true, false, true, false] ∧
  State.reset.cfg.winLen = 8 ∧ State.reset.cfg.termLen = 8 ∧ State.reset.cfg.guard = 24

/-- A reset by the host puts the five state elements at their reset values, whatever they were, keeps the
configuration (log entry 12) and emits no event (70_reset_and_hazards.md R180). -/
def Obligations.HostResetRestoresEveryElement : Prop :=
  ∀ s : State, (hostReset s).ds = .idle ∧ (hostReset s).cs = false ∧ (hostReset s).win = [] ∧
    (hostReset s).pbuf = [] ∧ (hostReset s).flt = 0b000 ∧ (hostReset s).cfg = s.cfg ∧
    (hostReset s).events = s.events

/-- The status outputs: `ds` as 00, 01, 10 and never 11, `cs` and `flt` as they are (10_state.md R10, R16). -/
def Obligations.StatusOutputsShowTheState : Prop :=
  ∀ s : State,
    ((statusOutputs s).ds = 0b00 ↔ s.ds = .idle) ∧ ((statusOutputs s).ds = 0b01 ↔ s.ds = .syncing) ∧
    ((statusOutputs s).ds = 0b10 ↔ s.ds = .receiving) ∧ (statusOutputs s).ds ≠ 0b11 ∧
    ((statusOutputs s).cs = 1 ↔ s.cs = true) ∧ (statusOutputs s).flt = s.flt

/-- The invariants (a) to (e) of R20 hold after reset (10_state.md R20). -/
def Obligations.InvariantHoldsAtReset : Prop :=
  StateInvariant State.reset ∧ ∀ cfg : Config, cfg.WellFormed → StateInvariant (State.resetWith cfg)

/-- Every step of every state under a well-formed configuration keeps the invariants (a) to (e) of R20
(10_state.md R20). -/
def Obligations.InvariantKeptByEveryStep : Prop :=
  ∀ s t : State, s.cfg.WellFormed → StateInvariant s → step s = .next t → StateInvariant t

/-- Every step keeps the spectrum lists canonical, so does a presentation of a canonical spectrum, and reset has it
(20_memory.md R30; the canonical form is the model's, log entry 5). -/
def Obligations.SpectrumStaysCanonical : Prop :=
  MemoryCanonical State.reset ∧
  (∀ s t : State, MemoryCanonical s → step s = .next t → MemoryCanonical t) ∧
  ∀ (s : State) (i : Instr) (cells : List (Nat × Byte)), MemoryCanonical s →
    MemoryCanonical (hostPresent (stimulus i cells) s)

/-! ## The serialisation of DATA -/

/-- A payload of `L` bits gives `ceil(L/8)` DATAW words; word `k` has `nvalid = min(8, L - 8k)`, bit `7 - j` of its
low byte is `p[8k + j]` for `j < nvalid`, and every other bit is 0, in a final partial word too (30_encoding.md R59,
R60). -/
def Obligations.DataWordsCarryThePayload : Prop :=
  ∀ p : BitSequence, (dataWords p).length = (p.length + 7) / 8 ∧
    ∀ k, k < (p.length + 7) / 8 → ((dataWords p)[k]?).map BitVec.toNat =
      some (5 * 2 ^ 28 + min 8 (p.length - 8 * k) * 2 ^ 8 +
        ∑ j ∈ Finset.range (min 8 (p.length - 8 * k)), (p[8 * k + j]?.getD false).toNat * 2 ^ (7 - j))
end

