-- ==== Sys2Proof/Laws/Memory.lean ====
section
/-! SUPPORT. What the operations over the spectrum space do: every one keeps the canonical form, a read after a write
gives the byte written, and the maximum of a window is attained and bounds every bin of it. -/

namespace Sys2Proof.Machine

/-! ### The canonical form -/

/-- A list canonical from `hi` up is canonical from any lower bound. -/
theorem wfFrom_mono {lo hi : Nat} {m : Memory} (h : Memory.wfFrom hi m = true) (hle : lo ≤ hi) :
    Memory.wfFrom lo m = true := by
  cases m with
  | nil => rfl
  | cons c rest =>
    obtain ⟨k, v⟩ := c
    simp only [Memory.wfFrom, Bool.and_eq_true, decide_eq_true_eq] at h ⊢
    exact ⟨⟨by omega, h.1.2⟩, h.2⟩

/-- Below the least listed address every bin reads the unlisted byte. -/
theorem read_below {lo a : Nat} {m : Memory} (h : Memory.wfFrom lo m = true) (ha : a < lo) :
    Memory.read m a = unlistedByte := by
  induction m generalizing lo with
  | nil => rfl
  | cons c rest ih =>
    obtain ⟨k, v⟩ := c
    simp only [Memory.wfFrom, Bool.and_eq_true, decide_eq_true_eq] at h
    rw [Memory.read, if_neg (by omega)]
    exact ih h.2 (by omega)

/-- A write keeps the canonical form, with the written address as a possible new lower end. -/
theorem wfFrom_write {lo : Nat} {m : Memory} (h : Memory.wfFrom lo m = true) (a : Nat) (b : Byte) (ha : lo ≤ a) :
    Memory.wfFrom lo (Memory.write m a b) = true := by
  induction m generalizing lo with
  | nil =>
    unfold Memory.write
    split <;> simp_all [Memory.wfFrom]
  | cons c rest ih =>
    obtain ⟨k, v⟩ := c
    simp only [Memory.wfFrom, Bool.and_eq_true, decide_eq_true_eq] at h
    unfold Memory.write
    by_cases h1 : a < k
    · by_cases hb : b = unlistedByte
      · simp [h1, hb, Memory.wfFrom, h]
      · simp [h1, hb, Memory.wfFrom, h, ha]
    · by_cases h2 : a = k
      · by_cases hb : b = unlistedByte
        · simpa [h2, hb] using wfFrom_mono h.2 (by omega)
        · simp [h2, hb, Memory.wfFrom, h]
      · simp only [h1, h2, if_false, Memory.wfFrom, Bool.and_eq_true, decide_eq_true_eq]
        exact ⟨h.1, ih h.2 (by omega)⟩

/-- The host's write of a bin keeps the canonical form. -/
theorem wf_write {m : Memory} (h : Memory.wf m = true) (a : Nat) (b : Byte) : Memory.wf (Memory.write m a b) = true :=
  wfFrom_write h a b (Nat.zero_le a)

/-- The host's fill of the spectrum space is canonical. -/
theorem wf_fill (cells : List (Nat × Byte)) : Memory.wf (Memory.fill cells) = true := by
  suffices h : ∀ m : Memory, Memory.wf m = true →
      Memory.wf (cells.foldl (fun m c => Memory.write m c.1 c.2) m) = true from h [] rfl
  induction cells with
  | nil => exact fun m hm => hm
  | cons c rest ih => exact fun m hm => ih _ (wf_write hm c.1 c.2)

/-! ### Read after write -/

/-- A read of a canonical memory after a write: the byte written at its address, every other bin as before. -/
theorem read_write {lo : Nat} {m : Memory} (h : Memory.wfFrom lo m = true) (a a' : Nat) (b : Byte) :
    Memory.read (Memory.write m a b) a' = if a' = a then b else Memory.read m a' := by
  induction m generalizing lo with
  | nil =>
    unfold Memory.write
    by_cases hb : b = unlistedByte
    · simp [hb, Memory.read]
    · simp [hb, Memory.read, eq_comm]
  | cons c rest ih =>
    obtain ⟨k, v⟩ := c
    simp only [Memory.wfFrom, Bool.and_eq_true, decide_eq_true_eq] at h
    have below : ∀ x, x < k + 1 → Memory.read rest x = unlistedByte := fun x hx => read_below h.2 hx
    unfold Memory.write
    by_cases h1 : a < k
    · by_cases hb : b = unlistedByte
      · by_cases ha : a' = a
        · simp [h1, hb, Memory.read, ha, show k ≠ a by omega, below a (by omega)]
        · simp [h1, hb, Memory.read, ha]
      · simp [h1, hb, Memory.read, eq_comm]
    · by_cases h2 : a = k
      · by_cases hb : b = unlistedByte
        · by_cases ha : a' = k
          · simp [h2, hb, ha, below k (by omega)]
          · simp [h2, hb, ha, Memory.read, show k ≠ a' from fun e => ha e.symm]
        · by_cases ha : a' = k
          · simp [h2, hb, ha, Memory.read]
          · simp [h2, hb, ha, Memory.read, show k ≠ a' from fun e => ha e.symm]
      · by_cases hk : k = a'
        · subst hk
          simp [h1, h2, Memory.read, show k ≠ a from fun e => h2 e.symm]
        · simp [h1, h2, Memory.read, hk, ih h.2]

/-! ### The maximum of the bins of a window -/

/-- A read of an existing bin. -/
theorem memRead_ok {X : Memory} {nbins a : Nat} (h : a < nbins) : memRead X nbins a = .ok (Memory.read X a) := by
  simp [memRead, h]

/-- `byteMax` is the larger value. -/
theorem byteMax_toNat (a b : Byte) : (byteMax a b).toNat = max a.toNat b.toNat := by
  unfold byteMax
  split <;> rename_i h <;> rw [BitVec.lt_def] at h <;> omega

/-- `byteMax` is one of the two. -/
theorem byteMax_eq (a b : Byte) : byteMax a b = a ∨ byteMax a b = b := by
  unfold byteMax
  split <;> simp

/-- Neither argument is above `byteMax`. -/
theorem le_byteMax (a b : Byte) : a ≤ byteMax a b ∧ b ≤ byteMax a b := by
  simp only [BitVec.le_def, byteMax_toNat]
  omega

/-- Reading existing bins never fails; the result bounds every bin read, and is one of them or 0. -/
theorem maxRead_spec (X : Memory) (nbins : Nat) (as : List Nat) (h : ∀ a ∈ as, a < nbins) :
    ∃ m, maxRead X nbins as = .ok m ∧ (∀ a ∈ as, Memory.read X a ≤ m) ∧
      (m = 0 ∨ ∃ a ∈ as, Memory.read X a = m) := by
  induction as with
  | nil => exact ⟨0, rfl, by simp, .inl rfl⟩
  | cons a rest ih =>
    obtain ⟨m, hm, hle, hat⟩ := ih fun x hx => h x (List.mem_cons_of_mem _ hx)
    refine ⟨byteMax (Memory.read X a) m, ?_, ?_, ?_⟩
    · simp [maxRead, memRead_ok (h a List.mem_cons_self), hm]
    · intro x hx
      rcases List.mem_cons.mp hx with rfl | hx
      · exact (le_byteMax _ _).1
      · exact BitVec.le_trans (hle x hx) (le_byteMax _ _).2
    · rcases byteMax_eq (Memory.read X a) m with e | e <;> rw [e]
      · exact .inr ⟨a, List.mem_cons_self, rfl⟩
      · rcases hat with h0 | ⟨x, hx, hxm⟩
        · exact .inl h0
        · exact .inr ⟨x, List.mem_cons_of_mem _ hx, hxm⟩

/-- The maximum of a non-empty list of existing bins is attained. -/
theorem maxRead_attained {X : Memory} {nbins : Nat} {as : List Nat} (h : ∀ a ∈ as, a < nbins) (hne : as ≠ []) :
    ∃ m, maxRead X nbins as = .ok m ∧ (∀ a ∈ as, Memory.read X a ≤ m) ∧ ∃ a ∈ as, Memory.read X a = m := by
  obtain ⟨m, hm, hle, h0 | hat⟩ := maxRead_spec X nbins as h
  · obtain ⟨a, ha⟩ := List.exists_mem_of_ne_nil as hne
    refine ⟨m, hm, hle, a, ha, ?_⟩
    have := hle a ha
    rw [h0, BitVec.le_def] at this
    rw [h0]
    exact BitVec.eq_of_toNat_eq (by simpa using this)
  · exact ⟨m, hm, hle, hat⟩

/-- The maximum depends on the listed bins only. -/
theorem maxRead_congr {X Y : Memory} {nbins : Nat} {as : List Nat} (h : ∀ a ∈ as, Memory.read X a = Memory.read Y a) :
    maxRead X nbins as = maxRead Y nbins as := by
  induction as with
  | nil => rfl
  | cons a rest ih =>
    have ha : memRead X nbins a = memRead Y nbins a := by simp [memRead, h a List.mem_cons_self]
    simp only [maxRead, ha, ih fun x hx => h x (List.mem_cons_of_mem _ hx)]

end Sys2Proof.Machine
end

