-- ==== Sys2Proof/Laws/Analyzer.lean ====
section
/-! SUPPORT. What the operand operations and the analyzer do: which bins a window holds, what legality says, and that
legal operands always give an analysis. -/

namespace Sys2Proof.Machine

/-- The addresses of a window are exactly the bins of R73, when its lower end is not below 0. -/
theorem mem_windowAddresses {W : Window} (h : W.radius ≤ W.centre) (a : Nat) :
    a ∈ windowAddresses W ↔ InWindow W a := by
  simp only [windowAddresses, List.mem_range'_1, InWindow]
  omega

/-- A window is never empty. -/
theorem windowAddresses_ne_nil (W : Window) : windowAddresses W ≠ [] := by
  simp [windowAddresses]

/-- A window lies inside the spectrum exactly when each of its addresses does. -/
theorem windowInside_iff (nbins : Nat) (W : Window) :
    windowInside nbins W ↔ ∀ a : ℤ, InWindow W a → 0 ≤ a ∧ a ≤ (nbins : ℤ) - 1 := by
  constructor
  · rintro ⟨h1, h2⟩ a ⟨h3, h4⟩
    omega
  · intro h
    have lo := h ((W.centre : ℤ) - W.radius) ⟨le_rfl, by omega⟩
    have hi := h ((W.centre : ℤ) + W.radius) ⟨by omega, le_rfl⟩
    constructor <;> omega

/-- The legality test of the model is R74's. -/
theorem legalOperands_iff (cfg : Config) (S N : Nat) : legalOperands cfg S N ↔ WindowsInSpectrum cfg S N := by
  simp only [legalOperands, windowInside_iff, WindowsInSpectrum, binCount]
  constructor
  · rintro ⟨h, h0, h1⟩
    exact ⟨h, fun a ha => ha.elim (h0 a) (h1 a)⟩
  · rintro ⟨h, hw⟩
    exact ⟨h, fun a ha => hw a (.inl ha), fun a ha => hw a (.inr ha)⟩

/-- Every bin of a window inside the spectrum exists. -/
theorem lt_of_mem_windowAddresses {nbins : Nat} {W : Window} (h : windowInside nbins W) :
    ∀ a ∈ windowAddresses W, a < nbins := by
  intro a ha
  have := (mem_windowAddresses h.1 a).mp ha
  simp only [InWindow] at this
  obtain ⟨h1, h2⟩ := h
  omega

/-- The maximum over a window inside the spectrum exists and is the window's maximum. -/
theorem maxRead_window (X : Memory) {nbins : Nat} {W : Window} (h : windowInside nbins W) :
    ∃ m, maxRead X nbins (windowAddresses W) = .ok m ∧ IsWindowMaximum X W m := by
  obtain ⟨m, hm, hle, a, ha, hat⟩ := maxRead_attained (X := X) (lt_of_mem_windowAddresses h) (windowAddresses_ne_nil W)
  exact ⟨m, hm, ⟨a, (mem_windowAddresses h.1 a).mp ha, hat⟩,
    fun x hx => hle x ((mem_windowAddresses h.1 x).mpr hx)⟩

/-- The analyzer from the two window maxima. -/
theorem analyze_of_max {cfg : Config} {X : Memory} {S N : Nat} {m0 m1 : Byte}
    (h0 : maxRead X (binCount N) (windowAddresses (window0 cfg S N)) = .ok m0)
    (h1 : maxRead X (binCount N) (windowAddresses (window1 cfg S N)) = .ok m1) :
    analyze cfg X S N = .ok (Analysis.ofMagnitudes cfg m0 m1) := by
  simp [analyze, h0, h1]

/-- An analysis comes from two window maxima. -/
theorem analyze_cases {cfg : Config} {X : Memory} {S N : Nat} {r : Analysis} (h : analyze cfg X S N = .ok r) :
    ∃ m0 m1, maxRead X (binCount N) (windowAddresses (window0 cfg S N)) = .ok m0 ∧
      maxRead X (binCount N) (windowAddresses (window1 cfg S N)) = .ok m1 ∧ r = Analysis.ofMagnitudes cfg m0 m1 := by
  unfold analyze at h
  split at h
  · rename_i m0 m1 h0 h1
    exact ⟨m0, m1, h0, h1, by simpa using h.symm⟩
  · cases h
  · cases h

/-- Legal operands always give an analysis: no read of a processed tick leaves the spectrum. -/
theorem analyze_ok_of_legal {cfg : Config} (X : Memory) {S N : Nat} (h : legalOperands cfg S N) :
    ∃ r, analyze cfg X S N = .ok r := by
  obtain ⟨m0, h0, -⟩ := maxRead_window X h.2.1
  obtain ⟨m1, h1, -⟩ := maxRead_window X h.2.2
  exact ⟨_, analyze_of_max h0 h1⟩

/-- The strength, bit and magnitudes of an analysis hang together as in R77 and R78. -/
theorem analysis_fields {cfg : Config} {X : Memory} {S N : Nat} {r : Analysis} (h : analyze cfg X S N = .ok r) :
    r.strength = byteMax r.mag0 r.mag1 ∧ r.bit = bitDecision cfg r.mag0 r.mag1 r.strength := by
  obtain ⟨m0, m1, -, -, rfl⟩ := analyze_cases h
  exact ⟨rfl, rfl⟩

/-- Above `MINDET` an analysis has the bit `mag1 > mag0`. -/
theorem analysis_bit {cfg : Config} {X : Memory} {S N : Nat} {r : Analysis} (h : analyze cfg X S N = .ok r)
    (hs : cfg.minDet < r.strength) : r.bit = some (decide (r.mag0 < r.mag1)) := by
  rw [(analysis_fields h).2, bitDecision, if_pos hs]

/-- At or below `MINDET` an analysis has no bit. -/
theorem analysis_null {cfg : Config} {X : Memory} {S N : Nat} {r : Analysis} (h : analyze cfg X S N = .ok r)
    (hs : ¬ cfg.minDet < r.strength) : r.bit = none := by
  rw [(analysis_fields h).2, bitDecision, if_neg hs]

/-- The analysis depends on the bins of the two windows only. -/
theorem analyze_congr {cfg : Config} {X Y : Memory} {S N : Nat} (hl : legalOperands cfg S N)
    (h : ∀ a : Nat, InWindow (window0 cfg S N) a ∨ InWindow (window1 cfg S N) a →
      Memory.read X a = Memory.read Y a) : analyze cfg X S N = analyze cfg Y S N := by
  have e0 := maxRead_congr (nbins := binCount N) fun a ha =>
    h a (.inl ((mem_windowAddresses (W := window0 cfg S N) hl.2.1.1 a).mp ha))
  have e1 := maxRead_congr (nbins := binCount N) fun a ha =>
    h a (.inr ((mem_windowAddresses (W := window1 cfg S N) hl.2.2.1 a).mp ha))
  simp only [analyze, e0, e1]

/-- The presence update of the model is R90's two assignments. -/
theorem presenceAfter_eq (cfg : Config) (strength : Byte) (cs : Bit) :
    presenceAfter cfg strength cs = hysteresis cfg strength cs := rfl

end Sys2Proof.Machine
end

