-- ==== Sys2Proof/Laws/State.lean ====
section
/-! SUPPORT. One lemma for each field under each update of the state, so that no later proof unfolds a record update. -/

namespace Sys2Proof.Machine

/-! ### enterDs -/

@[simp] theorem enterDs_ds (d : DetectorState) (s : State) : (enterDs d s).ds = d := rfl
@[simp] theorem enterDs_cs (d : DetectorState) (s : State) : (enterDs d s).cs = s.cs := rfl
@[simp] theorem enterDs_win (d : DetectorState) (s : State) : (enterDs d s).win = [] := rfl
@[simp] theorem enterDs_pbuf (d : DetectorState) (s : State) : (enterDs d s).pbuf = [] := rfl
@[simp] theorem enterDs_flt (d : DetectorState) (s : State) : (enterDs d s).flt = s.flt := rfl
@[simp] theorem enterDs_cfg (d : DetectorState) (s : State) : (enterDs d s).cfg = s.cfg := rfl
@[simp] theorem enterDs_spectrum (d : DetectorState) (s : State) : (enterDs d s).spectrum = s.spectrum := rfl
@[simp] theorem enterDs_port (d : DetectorState) (s : State) : (enterDs d s).port = s.port := rfl
@[simp] theorem enterDs_events (d : DetectorState) (s : State) : (enterDs d s).events = s.events := rfl

/-! ### emit -/

@[simp] theorem emit_ds (e : Event) (s : State) : (emit e s).ds = s.ds := rfl
@[simp] theorem emit_cs (e : Event) (s : State) : (emit e s).cs = s.cs := rfl
@[simp] theorem emit_win (e : Event) (s : State) : (emit e s).win = s.win := rfl
@[simp] theorem emit_pbuf (e : Event) (s : State) : (emit e s).pbuf = s.pbuf := rfl
@[simp] theorem emit_flt (e : Event) (s : State) : (emit e s).flt = s.flt := rfl
@[simp] theorem emit_cfg (e : Event) (s : State) : (emit e s).cfg = s.cfg := rfl
@[simp] theorem emit_spectrum (e : Event) (s : State) : (emit e s).spectrum = s.spectrum := rfl
@[simp] theorem emit_port (e : Event) (s : State) : (emit e s).port = s.port := rfl
@[simp] theorem emit_events (e : Event) (s : State) : (emit e s).events = s.events ++ [e] := rfl

/-! ### raiseFault -/

@[simp] theorem raiseFault_ds (f : FaultBit) (s : State) : (raiseFault f s).ds = s.ds := rfl
@[simp] theorem raiseFault_cs (f : FaultBit) (s : State) : (raiseFault f s).cs = s.cs := rfl
@[simp] theorem raiseFault_win (f : FaultBit) (s : State) : (raiseFault f s).win = s.win := rfl
@[simp] theorem raiseFault_pbuf (f : FaultBit) (s : State) : (raiseFault f s).pbuf = s.pbuf := rfl
@[simp] theorem raiseFault_flt (f : FaultBit) (s : State) : (raiseFault f s).flt = s.flt ||| f.mask := rfl
@[simp] theorem raiseFault_cfg (f : FaultBit) (s : State) : (raiseFault f s).cfg = s.cfg := rfl
@[simp] theorem raiseFault_spectrum (f : FaultBit) (s : State) : (raiseFault f s).spectrum = s.spectrum := rfl
@[simp] theorem raiseFault_port (f : FaultBit) (s : State) : (raiseFault f s).port = s.port := rfl
@[simp] theorem raiseFault_events (f : FaultBit) (s : State) : (raiseFault f s).events = s.events := rfl

/-! ### takeCommand -/

@[simp] theorem takeCommand_ds (p : Presentation) (rest : List Presentation) (s : State) : (takeCommand p rest s).ds = s.ds := rfl
@[simp] theorem takeCommand_cs (p : Presentation) (rest : List Presentation) (s : State) : (takeCommand p rest s).cs = s.cs := rfl
@[simp] theorem takeCommand_win (p : Presentation) (rest : List Presentation) (s : State) : (takeCommand p rest s).win = s.win := rfl
@[simp] theorem takeCommand_pbuf (p : Presentation) (rest : List Presentation) (s : State) : (takeCommand p rest s).pbuf = s.pbuf := rfl
@[simp] theorem takeCommand_flt (p : Presentation) (rest : List Presentation) (s : State) : (takeCommand p rest s).flt = s.flt := rfl
@[simp] theorem takeCommand_cfg (p : Presentation) (rest : List Presentation) (s : State) : (takeCommand p rest s).cfg = s.cfg := rfl
@[simp] theorem takeCommand_spectrum (p : Presentation) (rest : List Presentation) (s : State) : (takeCommand p rest s).spectrum = p.spectrum := rfl
@[simp] theorem takeCommand_port (p : Presentation) (rest : List Presentation) (s : State) : (takeCommand p rest s).port = rest := rfl
@[simp] theorem takeCommand_events (p : Presentation) (rest : List Presentation) (s : State) : (takeCommand p rest s).events = s.events := rfl

/-! ### hostPresent -/

@[simp] theorem hostPresent_ds (p : Presentation) (s : State) : (hostPresent p s).ds = s.ds := rfl
@[simp] theorem hostPresent_cs (p : Presentation) (s : State) : (hostPresent p s).cs = s.cs := rfl
@[simp] theorem hostPresent_win (p : Presentation) (s : State) : (hostPresent p s).win = s.win := rfl
@[simp] theorem hostPresent_pbuf (p : Presentation) (s : State) : (hostPresent p s).pbuf = s.pbuf := rfl
@[simp] theorem hostPresent_flt (p : Presentation) (s : State) : (hostPresent p s).flt = s.flt := rfl
@[simp] theorem hostPresent_cfg (p : Presentation) (s : State) : (hostPresent p s).cfg = s.cfg := rfl
@[simp] theorem hostPresent_spectrum (p : Presentation) (s : State) : (hostPresent p s).spectrum = s.spectrum := rfl
@[simp] theorem hostPresent_port (p : Presentation) (s : State) : (hostPresent p s).port = s.port ++ [p] := rfl
@[simp] theorem hostPresent_events (p : Presentation) (s : State) : (hostPresent p s).events = s.events := rfl

/-! ### hostReset -/

@[simp] theorem hostReset_ds (s : State) : (hostReset s).ds = .idle := rfl
@[simp] theorem hostReset_cs (s : State) : (hostReset s).cs = false := rfl
@[simp] theorem hostReset_win (s : State) : (hostReset s).win = [] := rfl
@[simp] theorem hostReset_pbuf (s : State) : (hostReset s).pbuf = [] := rfl
@[simp] theorem hostReset_flt (s : State) : (hostReset s).flt = 0 := rfl
@[simp] theorem hostReset_cfg (s : State) : (hostReset s).cfg = s.cfg := rfl
@[simp] theorem hostReset_spectrum (s : State) : (hostReset s).spectrum = s.spectrum := rfl
@[simp] theorem hostReset_port (s : State) : (hostReset s).port = s.port := rfl
@[simp] theorem hostReset_events (s : State) : (hostReset s).events = s.events := rfl

/-! ### lock -/

@[simp] theorem lock_ds (s : State) : (lock s).ds = .receiving := rfl
@[simp] theorem lock_cs (s : State) : (lock s).cs = s.cs := rfl
@[simp] theorem lock_win (s : State) : (lock s).win = [] := rfl
@[simp] theorem lock_pbuf (s : State) : (lock s).pbuf = [] := rfl
@[simp] theorem lock_flt (s : State) : (lock s).flt = s.flt := rfl
@[simp] theorem lock_cfg (s : State) : (lock s).cfg = s.cfg := rfl
@[simp] theorem lock_spectrum (s : State) : (lock s).spectrum = s.spectrum := rfl
@[simp] theorem lock_port (s : State) : (lock s).port = s.port := rfl
@[simp] theorem lock_events (s : State) : (lock s).events = s.events ++ [.sync] := rfl

/-! ### appendBit -/

@[simp] theorem appendBit_ds (b : Bit) (s : State) : (appendBit b s).ds = s.ds := rfl
@[simp] theorem appendBit_cs (b : Bit) (s : State) : (appendBit b s).cs = s.cs := rfl
@[simp] theorem appendBit_win (b : Bit) (s : State) : (appendBit b s).win = s.win := rfl
@[simp] theorem appendBit_pbuf (b : Bit) (s : State) : (appendBit b s).pbuf = s.pbuf ++ [b] := rfl
@[simp] theorem appendBit_flt (b : Bit) (s : State) : (appendBit b s).flt = s.flt := rfl
@[simp] theorem appendBit_cfg (b : Bit) (s : State) : (appendBit b s).cfg = s.cfg := rfl
@[simp] theorem appendBit_spectrum (b : Bit) (s : State) : (appendBit b s).spectrum = s.spectrum := rfl
@[simp] theorem appendBit_port (b : Bit) (s : State) : (appendBit b s).port = s.port := rfl
@[simp] theorem appendBit_events (b : Bit) (s : State) : (appendBit b s).events = s.events ++ [.bit b] := rfl

/-! ### handOver -/

@[simp] theorem handOver_ds (s : State) : (handOver s).ds = .syncing := rfl
@[simp] theorem handOver_cs (s : State) : (handOver s).cs = s.cs := rfl
@[simp] theorem handOver_win (s : State) : (handOver s).win = [] := rfl
@[simp] theorem handOver_pbuf (s : State) : (handOver s).pbuf = [] := rfl
@[simp] theorem handOver_flt (s : State) : (handOver s).flt = s.flt := rfl
@[simp] theorem handOver_cfg (s : State) : (handOver s).cfg = s.cfg := rfl
@[simp] theorem handOver_spectrum (s : State) : (handOver s).spectrum = s.spectrum := rfl
@[simp] theorem handOver_port (s : State) : (handOver s).port = s.port := rfl
@[simp] theorem handOver_events (s : State) : (handOver s).events = s.events ++ [.data (payloadOf s.cfg s.pbuf)] := rfl

/-! ### overflow -/

@[simp] theorem overflow_ds (s : State) : (overflow s).ds = .syncing := rfl
@[simp] theorem overflow_cs (s : State) : (overflow s).cs = s.cs := rfl
@[simp] theorem overflow_win (s : State) : (overflow s).win = [] := rfl
@[simp] theorem overflow_pbuf (s : State) : (overflow s).pbuf = [] := rfl
@[simp] theorem overflow_flt (s : State) : (overflow s).flt = s.flt ||| 0b100 := rfl
@[simp] theorem overflow_cfg (s : State) : (overflow s).cfg = s.cfg := rfl
@[simp] theorem overflow_spectrum (s : State) : (overflow s).spectrum = s.spectrum := rfl
@[simp] theorem overflow_port (s : State) : (overflow s).port = s.port := rfl
@[simp] theorem overflow_events (s : State) : (overflow s).events = s.events := rfl

/-! ### observe -/

@[simp] theorem observe_ds (r : Analysis) (s : State) : (observe r s).ds = s.ds := rfl
@[simp] theorem observe_cs (r : Analysis) (s : State) : (observe r s).cs = hysteresis s.cfg r.strength s.cs := rfl
@[simp] theorem observe_win (r : Analysis) (s : State) : (observe r s).win = s.win := rfl
@[simp] theorem observe_pbuf (r : Analysis) (s : State) : (observe r s).pbuf = s.pbuf := rfl
@[simp] theorem observe_flt (r : Analysis) (s : State) : (observe r s).flt = s.flt := rfl
@[simp] theorem observe_cfg (r : Analysis) (s : State) : (observe r s).cfg = s.cfg := rfl
@[simp] theorem observe_spectrum (r : Analysis) (s : State) : (observe r s).spectrum = s.spectrum := rfl
@[simp] theorem observe_port (r : Analysis) (s : State) : (observe r s).port = s.port := rfl
@[simp] theorem observe_events (r : Analysis) (s : State) : (observe r s).events = s.events ++ [.ana r.bit r.strength] := rfl

/-! ### illegalCommand -/

@[simp] theorem illegalCommand_ds (s : State) : (illegalCommand s).ds = s.ds := rfl
@[simp] theorem illegalCommand_cs (s : State) : (illegalCommand s).cs = s.cs := rfl
@[simp] theorem illegalCommand_win (s : State) : (illegalCommand s).win = s.win := rfl
@[simp] theorem illegalCommand_pbuf (s : State) : (illegalCommand s).pbuf = s.pbuf := rfl
@[simp] theorem illegalCommand_flt (s : State) : (illegalCommand s).flt = s.flt ||| 0b001 := rfl
@[simp] theorem illegalCommand_cfg (s : State) : (illegalCommand s).cfg = s.cfg := rfl
@[simp] theorem illegalCommand_spectrum (s : State) : (illegalCommand s).spectrum = s.spectrum := rfl
@[simp] theorem illegalCommand_port (s : State) : (illegalCommand s).port = s.port := rfl
@[simp] theorem illegalCommand_events (s : State) : (illegalCommand s).events = s.events := rfl

/-! ### withFetchWord -/

@[simp] theorem withFetchWord_ds (s : State) (nbits w : Nat) : (s.withFetchWord nbits w).ds = s.ds := rfl
@[simp] theorem withFetchWord_cs (s : State) (nbits w : Nat) : (s.withFetchWord nbits w).cs = s.cs := rfl
@[simp] theorem withFetchWord_win (s : State) (nbits w : Nat) : (s.withFetchWord nbits w).win = s.win := rfl
@[simp] theorem withFetchWord_pbuf (s : State) (nbits w : Nat) : (s.withFetchWord nbits w).pbuf = s.pbuf := rfl
@[simp] theorem withFetchWord_flt (s : State) (nbits w : Nat) : (s.withFetchWord nbits w).flt = s.flt := rfl
@[simp] theorem withFetchWord_cfg (s : State) (nbits w : Nat) : (s.withFetchWord nbits w).cfg = s.cfg := rfl
@[simp] theorem withFetchWord_spectrum (s : State) (nbits w : Nat) : (s.withFetchWord nbits w).spectrum = s.spectrum := rfl
@[simp] theorem withFetchWord_port (s : State) (nbits w : Nat) : (s.withFetchWord nbits w).port = ⟨tableWord nbits w, s.spectrum⟩ :: s.port := rfl
@[simp] theorem withFetchWord_events (s : State) (nbits w : Nat) : (s.withFetchWord nbits w).events = s.events := rfl

end Sys2Proof.Machine
end

