-- ==== Sys2Proof/Laws/Control.lean ====
section
/-! SUPPORT. What a command and a step can do, said once: the cases of an admitted bit, of a processed tick, of `exec`
and of `step`. -/

namespace Sys2Proof.Machine

/-- What `PMAX` holds, it holds when shorter. -/
theorem fits_mono {cfg : Config} {a b : Nat} (h : a ≤ b) (hb : cfg.fits b = true) : cfg.fits a = true := by
  unfold Config.fits at hb ⊢
  split
  · rfl
  · rename_i m hm
    simp only [hm, decide_eq_true_eq] at hb ⊢
    omega

/-- A well-formed configuration holds a payload one bit longer than `GUARD` (00_scope.md R6). -/
theorem wellFormed_fits {cfg : Config} (h : cfg.WellFormed) : cfg.fits (cfg.guard + 1) = true := by
  have hp := h.2.2.2.2
  unfold Config.fits
  split
  · rfl
  · rename_i m hm
    simpa [hm] using hp

/-- The preamble of a well-formed configuration is not empty (00_scope.md R6). -/
theorem wellFormed_preamble {cfg : Config} (h : cfg.WellFormed) : cfg.preamble ≠ [] := by
  intro he
  have hl := h.2.1
  have hw := h.2.2.1
  rw [he, List.length_nil] at hl
  omega

/-- The cases of an admitted bit: not listening; the window rolls; the lock; the append; the hand-over; the
overflow. -/
theorem admitBit_cases (b : Bit) (s : State) :
    (s.ds = .idle ∧ admitBit b s = s) ∨
    (s.ds = .syncing ∧ pushWindow s.cfg s.win b ≠ s.cfg.preamble ∧
      admitBit b s = { s with win := pushWindow s.cfg s.win b }) ∨
    (s.ds = .syncing ∧ pushWindow s.cfg s.win b = s.cfg.preamble ∧ admitBit b s = lock s) ∨
    (s.ds = .receiving ∧ s.cfg.fits (s.pbuf.length + 1) = true ∧ ¬ terminated s.cfg (s.pbuf ++ [b]) ∧
      admitBit b s = appendBit b s) ∨
    (s.ds = .receiving ∧ s.cfg.fits (s.pbuf.length + 1) = true ∧ terminated s.cfg (s.pbuf ++ [b]) ∧
      admitBit b s = handOver (appendBit b s)) ∨
    (s.ds = .receiving ∧ s.cfg.fits (s.pbuf.length + 1) = false ∧ admitBit b s = overflow s) := by
  cases hd : s.ds with
  | idle => exact .inl ⟨rfl, by simp [admitBit, hd]⟩
  | syncing =>
    by_cases h : pushWindow s.cfg s.win b = s.cfg.preamble
    · exact .inr (.inr (.inl ⟨rfl, h, by simp [admitBit, hd, syncDetector, h]⟩))
    · exact .inr (.inl ⟨rfl, h, by simp [admitBit, hd, syncDetector, h]⟩)
  | receiving =>
    cases hf : s.cfg.fits (s.pbuf.length + 1) with
    | false => exact .inr (.inr (.inr (.inr (.inr ⟨rfl, rfl, by simp [admitBit, hd, frameDecoder, hf]⟩))))
    | true =>
      by_cases ht : terminated s.cfg (s.pbuf ++ [b])
      · have : admitBit b s = handOver (appendBit b s) := by
          rw [admitBit, hd]
          exact (if_pos hf).trans (if_pos ht)
        exact .inr (.inr (.inr (.inr (.inl ⟨rfl, rfl, ht, this⟩))))
      · have : admitBit b s = appendBit b s := by
          rw [admitBit, hd]
          exact (if_pos hf).trans (if_neg ht)
        exact .inr (.inr (.inr (.inl ⟨rfl, rfl, ht, this⟩)))

/-- The cases of a processed tick: nothing admitted, or the analyzer's bit admitted after the observation. -/
theorem processTick_cases (r : Analysis) (s : State) :
    processTick r s = observe r s ∨
    ∃ b, r.bit = some b ∧ s.cfg.minDet < r.strength ∧ hysteresis s.cfg r.strength s.cs = true ∧
      processTick r s = admitBit b (observe r s) := by
  unfold processTick
  split
  · rename_i h
    simp only [admits, Bool.and_eq_true, decide_eq_true_eq] at h
    cases hb : r.bit with
    | none => exact .inl rfl
    | some b => exact .inr ⟨b, rfl, h.1, h.2, rfl⟩
  · exact .inl rfl

/-- A processed tick whose bit is admitted. -/
theorem processTick_admitted {r : Analysis} {s : State} {b : Bit} (hb : r.bit = some b)
    (hm : s.cfg.minDet < r.strength) (hc : hysteresis s.cfg r.strength s.cs = true) :
    processTick r s = admitBit b (observe r s) := by
  simp [processTick, admits, hm, hc, hb]

/-- A processed tick that admits nothing. -/
theorem processTick_rejected {r : Analysis} {s : State}
    (h : ¬ (s.cfg.minDet < r.strength ∧ hysteresis s.cfg r.strength s.cs = true)) :
    processTick r s = observe r s := by
  have : admits s.cfg r.strength (hysteresis s.cfg r.strength s.cs) = false := by
    simpa [admits] using h
  simp [processTick, this]

/-- What a TICK does: nothing in IDLE, BADOPD on illegal operands, otherwise a processed tick. -/
theorem execTick_cases (srate lgfft : Nat) (s : State) :
    (s.ds = .idle ∧ execTick srate lgfft s = .next s) ∨
    (s.ds ≠ .idle ∧ ¬ legalOperands s.cfg srate (2 ^ lgfft) ∧
      execTick srate lgfft s = .next (raiseFault .badopd s)) ∨
    (s.ds ≠ .idle ∧ legalOperands s.cfg srate (2 ^ lgfft) ∧
      ∃ r, analyze s.cfg s.spectrum srate (2 ^ lgfft) = .ok r ∧
        execTick srate lgfft s = .next (processTick r s)) := by
  unfold execTick fftSize
  by_cases hd : s.ds = .idle
  · exact .inl ⟨hd, if_pos hd⟩
  · rw [if_neg hd]
    by_cases hl : legalOperands s.cfg srate (2 ^ lgfft)
    · obtain ⟨r, hr⟩ := analyze_ok_of_legal s.spectrum hl
      exact .inr (.inr ⟨hd, hl, r, hr, by rw [if_pos hl, hr]⟩)
    · exact .inr (.inl ⟨hd, hl, if_neg hl⟩)

/-- A TICK that is processed. -/
theorem execTick_processed {srate lgfft : Nat} {s : State} {r : Analysis} (hd : s.ds ≠ .idle)
    (hl : legalOperands s.cfg srate (2 ^ lgfft)) (hr : analyze s.cfg s.spectrum srate (2 ^ lgfft) = .ok r) :
    execTick srate lgfft s = .next (processTick r s) := by
  unfold execTick fftSize
  rw [if_neg hd, if_pos hl, hr]

/-- What a step does: it waits, raises ILLCMD, or runs the decoded command. -/
theorem step_cases (s : State) :
    (s.port = [] ∧ step s = .next s) ∨
    (∃ p rest e, s.port = p :: rest ∧ decode p.word = .error e ∧
      step s = .next (illegalCommand (takeCommand p rest s))) ∨
    (∃ p rest i, s.port = p :: rest ∧ decode p.word = .ok i ∧ step s = exec i (takeCommand p rest s)) := by
  unfold step runWord
  cases hp : s.port with
  | nil => exact .inl ⟨rfl, rfl⟩
  | cons p rest =>
    cases hd : decode p.word with
    | error e => exact .inr (.inl ⟨p, rest, e, rfl, hd, by simp [hd]⟩)
    | ok i => exact .inr (.inr ⟨p, rest, i, rfl, hd, by simp [hd]⟩)

/-- An admitted bit leaves `cs`, the configuration and the host's side alone. -/
theorem admitBit_frame (b : Bit) (s : State) :
    (admitBit b s).cs = s.cs ∧ (admitBit b s).cfg = s.cfg ∧ (admitBit b s).spectrum = s.spectrum ∧
      (admitBit b s).port = s.port := by
  rcases admitBit_cases b s with ⟨-, h⟩ | ⟨-, -, h⟩ | ⟨-, -, h⟩ | ⟨-, -, -, h⟩ | ⟨-, -, -, h⟩ | ⟨-, -, h⟩ <;>
    rw [h] <;> simp

/-- No stage after the analyzer reads the spectrum. -/
theorem admitBit_withSpectrum (b : Bit) (s : State) (X : Memory) :
    admitBit b { s with spectrum := X } = { admitBit b s with spectrum := X } := by
  obtain ⟨ds, cs, win, pbuf, flt, cfg, X0, port, events⟩ := s
  cases ds with
  | idle => rfl
  | syncing =>
    simp only [admitBit, syncDetector]
    split <;> rfl
  | receiving =>
    simp only [admitBit, frameDecoder]
    split
    · split <;> rfl
    · rfl

/-- No stage after the analyzer reads the fault register; the overflow raises OVF in whatever it holds. -/
theorem admitBit_withFaults (b : Bit) (s : State) :
    ∃ raised : BitVec 3, ∀ f : BitVec 3, admitBit b { s with flt := f } = { admitBit b s with flt := f ||| raised } := by
  have none : ∀ f : BitVec 3, f ||| 0 = f := by decide
  obtain ⟨ds, cs, win, pbuf, flt, cfg, X0, port, events⟩ := s
  cases ds with
  | idle => exact ⟨0, fun f => by simp only [none]; rfl⟩
  | syncing =>
    refine ⟨0, fun f => ?_⟩
    simp only [admitBit, syncDetector, none]
    split <;> rfl
  | receiving =>
    by_cases hf : cfg.fits (pbuf.length + 1) = true
    · refine ⟨0, fun f => ?_⟩
      simp only [admitBit, frameDecoder, none, if_pos hf]
      split <;> rfl
    · refine ⟨0b100, fun f => ?_⟩
      simp only [admitBit, frameDecoder, if_neg hf]
      rfl

/-- A processed tick reads the spectrum through its analysis only. -/
theorem processTick_withSpectrum (r : Analysis) (s : State) (X : Memory) :
    processTick r { s with spectrum := X } = { processTick r s with spectrum := X } := by
  unfold processTick
  dsimp only
  split
  · cases r.bit with
    | none => rfl
    | some b => exact admitBit_withSpectrum b (observe r s) X
  · rfl

/-- A processed tick does not read the fault register. -/
theorem processTick_withFaults (r : Analysis) (s : State) :
    ∃ raised : BitVec 3, ∀ f : BitVec 3,
      processTick r { s with flt := f } = { processTick r s with flt := f ||| raised } := by
  have none : ∀ f : BitVec 3, f ||| 0 = f := by decide
  rcases processTick_cases r s with h | ⟨b, hb, hm, hc, h⟩
  · by_cases ha : s.cfg.minDet < r.strength ∧ hysteresis s.cfg r.strength s.cs = true
    · cases hb : r.bit with
      | none =>
        refine ⟨0, fun f => ?_⟩
        rw [none, h]
        simp only [processTick, hb, ite_self]
        rfl
      | some b =>
        obtain ⟨x, hx⟩ := admitBit_withFaults b (observe r s)
        refine ⟨x, fun f => ?_⟩
        rw [processTick_admitted (s := { s with flt := f }) hb ha.1 ha.2, processTick_admitted hb ha.1 ha.2]
        exact hx f
    · refine ⟨0, fun f => ?_⟩
      rw [processTick_rejected (s := { s with flt := f }) ha, h, none]
      rfl
  · obtain ⟨x, hx⟩ := admitBit_withFaults b (observe r s)
    refine ⟨x, fun f => ?_⟩
    rw [processTick_admitted (s := { s with flt := f }) hb hm hc, h]
    exact hx f

/-- A processed tick updates `cs` by R90 and leaves the configuration and the host's side alone. -/
theorem processTick_frame (r : Analysis) (s : State) :
    (processTick r s).cs = hysteresis s.cfg r.strength s.cs ∧ (processTick r s).cfg = s.cfg ∧
      (processTick r s).spectrum = s.spectrum ∧ (processTick r s).port = s.port := by
  rcases processTick_cases r s with h | ⟨b, -, -, -, h⟩ <;> rw [h]
  · simp
  · simpa using admitBit_frame b (observe r s)

end Sys2Proof.Machine
end

