-- ==== Sys2Proof/Laws/Decode.lean ====
section
/-! SUPPORT. The fields of an assembled word, and the assembled fields of a word (spec/30_encoding.md R51). -/

namespace Sys2Proof

/-! ### The bits of a field and of an assembled word -/

theorem opField_bit (w : Word) (i : Nat) : (opField w).getLsbD i = (decide (i < 2) && w.getLsbD (30 + i)) := by
  simp only [opField, BitVec.getLsbD_extractLsb]

theorem rsvField_bit (w : Word) (i : Nat) : (rsvField w).getLsbD i = (decide (i < 1) && w.getLsbD (29 + i)) := by
  simp only [rsvField, BitVec.getLsbD_extractLsb]

theorem lgfftField_bit (w : Word) (i : Nat) :
    (lgfftField w).getLsbD i = (decide (i < 5) && w.getLsbD (24 + i)) := by
  simp only [lgfftField, BitVec.getLsbD_extractLsb]

theorem srateField_bit (w : Word) (i : Nat) : (srateField w).getLsbD i = (decide (i < 24) && w.getLsbD i) := by
  simp only [srateField, BitVec.getLsbD_extractLsb, Nat.zero_add]

theorem operandField_bit (w : Word) (i : Nat) :
    (operandField w).getLsbD i = (decide (i < 29) && w.getLsbD i) := by
  simp only [operandField, BitVec.getLsbD_extractLsb, Nat.zero_add]

theorem assemble_bit (op : BitVec 2) (lg : BitVec 5) (sr : BitVec 24) (i : Nat) :
    (assemble op lg sr).getLsbD i =
      if i < 24 then sr.getLsbD i else if i < 29 then lg.getLsbD (i - 24)
      else if i < 30 then false else op.getLsbD (i - 30) := by
  simp only [assemble, BitVec.getLsbD_append]
  split
  · rfl
  · by_cases h1 : i < 29
    · rw [if_pos (by omega), if_pos h1]
    · by_cases h2 : i < 30
      · rw [if_neg (by omega), if_pos (by omega), if_neg h1, if_pos h2]
        exact BitVec.getLsbD_zero
      · rw [if_neg (by omega), if_neg (by omega), if_neg h1, if_neg h2, show i - 24 - 5 - 1 = i - 30 by omega]

/-! ### The fields of an assembled word -/

@[simp] theorem opField_assemble (op : BitVec 2) (lg : BitVec 5) (sr : BitVec 24) :
    opField (assemble op lg sr) = op :=
  BitVec.eq_of_getLsbD_eq fun i hi => by
    rw [opField_bit, assemble_bit, if_neg (by omega), if_neg (by omega), if_neg (by omega)]
    simp [hi]

@[simp] theorem rsvField_assemble (op : BitVec 2) (lg : BitVec 5) (sr : BitVec 24) :
    rsvField (assemble op lg sr) = 0 :=
  BitVec.eq_of_getLsbD_eq fun i hi => by
    rw [rsvField_bit, assemble_bit, if_neg (by omega), if_neg (by omega), if_pos (by omega)]
    simp

@[simp] theorem lgfftField_assemble (op : BitVec 2) (lg : BitVec 5) (sr : BitVec 24) :
    lgfftField (assemble op lg sr) = lg :=
  BitVec.eq_of_getLsbD_eq fun i hi => by
    rw [lgfftField_bit, assemble_bit, if_neg (by omega), if_pos (by omega)]
    simp [hi]

@[simp] theorem srateField_assemble (op : BitVec 2) (lg : BitVec 5) (sr : BitVec 24) :
    srateField (assemble op lg sr) = sr :=
  BitVec.eq_of_getLsbD_eq fun i hi => by
    rw [srateField_bit, assemble_bit, if_pos hi]
    simp [hi]

/-! ### The assembled fields of a word -/

/-- A word with a zero reserved bit is assembled from its fields. -/
theorem assemble_fields (w : Word) (h : rsvField w = 0) :
    assemble (opField w) (lgfftField w) (srateField w) = w := by
  have h29 : w.getLsbD 29 = false := by
    have := rsvField_bit w 0
    rw [h, decide_eq_true (by omega), Bool.true_and] at this
    exact this.symm.trans BitVec.getLsbD_zero
  refine BitVec.eq_of_getLsbD_eq fun i hi => ?_
  rw [assemble_bit]
  split
  · rename_i h1
    rw [srateField_bit, decide_eq_true h1, Bool.true_and]
  · split
    · rw [lgfftField_bit, decide_eq_true (by omega), Bool.true_and, show 24 + (i - 24) = i by omega]
    · split
      · rw [show i = 29 by omega, h29]
      · rw [opField_bit, decide_eq_true (by omega), Bool.true_and, show 30 + (i - 30) = i by omega]

/-- The operand bits are zero exactly when both operand fields are. -/
theorem operandField_eq_zero (w : Word) : operandField w = 0 ↔ lgfftField w = 0 ∧ srateField w = 0 := by
  constructor
  · intro h
    have bit : ∀ i, i < 29 → w.getLsbD i = false := fun i hi => by
      have := operandField_bit w i
      rw [h, decide_eq_true hi, Bool.true_and] at this
      exact this.symm.trans BitVec.getLsbD_zero
    constructor <;> refine BitVec.eq_of_getLsbD_eq fun i hi => ?_
    · rw [lgfftField_bit, bit (24 + i) (by omega), Bool.and_false]
      exact BitVec.getLsbD_zero.symm
    · rw [srateField_bit, bit i (by omega), Bool.and_false]
      exact BitVec.getLsbD_zero.symm
  · rintro ⟨h1, h2⟩
    refine BitVec.eq_of_getLsbD_eq fun i hi => ?_
    rw [operandField_bit, decide_eq_true hi, Bool.true_and]
    refine Eq.trans ?_ BitVec.getLsbD_zero.symm
    by_cases hc : i < 24
    · have := srateField_bit w i
      rw [h2, decide_eq_true hc, Bool.true_and] at this
      exact this.symm.trans BitVec.getLsbD_zero
    · have := lgfftField_bit w (i - 24)
      rw [h1, decide_eq_true (by omega), Bool.true_and, show 24 + (i - 24) = i by omega] at this
      exact this.symm.trans BitVec.getLsbD_zero

/-- The cases of the decoder (R55). -/
theorem decode_cases (w : Word) :
    (rsvField w = 1 ∧ decode w = .error .reservedBit) ∨
    (rsvField w = 0 ∧ opField w = 0b11 ∧ decode w = .ok (.tick (srateField w).toNat (lgfftField w).toNat)) ∨
    (rsvField w = 0 ∧ opField w ≠ 0b11 ∧ operandField w ≠ 0 ∧ decode w = .error .operandBits) ∨
    (rsvField w = 0 ∧ operandField w = 0 ∧
      ((opField w = 0b00 ∧ decode w = .ok .nop) ∨ (opField w = 0b01 ∧ decode w = .ok .start) ∨
        (opField w = 0b10 ∧ decode w = .ok .stop))) := by
  have two : ∀ v : BitVec 1, v = 1 ∨ v = 0 := by decide
  have four : ∀ v : BitVec 2, v = 0b00 ∨ v = 0b01 ∨ v = 0b10 ∨ v = 0b11 := by decide
  rcases two (rsvField w) with hr | hr
  · exact .inl ⟨hr, by simp [decode, hr]⟩
  · by_cases ho : opField w = 0b11
    · exact .inr (.inl ⟨hr, ho, by simp [decode, hr, ho]⟩)
    · by_cases hz : operandField w = 0
      · refine .inr (.inr (.inr ⟨hr, hz, ?_⟩))
        rcases four (opField w) with h | h | h | h
        · exact .inl ⟨h, by simp [decode, hr, hz, h]⟩
        · exact .inr (.inl ⟨h, by simp [decode, hr, hz, h]⟩)
        · exact .inr (.inr ⟨h, by simp [decode, hr, hz, h]⟩)
        · exact absurd h ho
      · refine .inr (.inr (.inl ⟨hr, ho, hz, ?_⟩))
        rw [decode, if_neg (by simp [hr]), if_neg ho, if_pos hz]

end Sys2Proof
end

