-- ==== Sys2Proof/Laws/PerInstr.lean ====
section
/-! SUPPORT. Statements made per instruction: family `OpField`, the fixed fields of each command's encoding
(spec/30_encoding.md R51). -/

namespace Sys2Proof.Laws

/-- The `op` field of a command (R51). -/
def opOf : Instr → BitVec 2
  | .nop => 0b00
  | .start => 0b01
  | .stop => 0b10
  | .tick _ _ => 0b11

/-- The encoding of an instruction has its `op` field and a zero reserved bit (R51). -/
def OpField.Statement (i : Instr) : Prop := opField (encode i) = opOf i ∧ rsvField (encode i) = 0

theorem OpField.nop : OpField.Statement .nop := ⟨opField_assemble .., rsvField_assemble ..⟩

theorem OpField.start : OpField.Statement .start := ⟨opField_assemble .., rsvField_assemble ..⟩

theorem OpField.stop : OpField.Statement .stop := ⟨opField_assemble .., rsvField_assemble ..⟩

theorem OpField.tick (srate lgfft : Nat) : OpField.Statement (.tick srate lgfft) :=
  ⟨opField_assemble .., rsvField_assemble ..⟩

end Sys2Proof.Laws
end

