-- ==== Sys2Proof/Laws/Run.lean ====
section
/-! SUPPORT. Runs of several steps: the induction over a run, packaged once, and the feeding of bits one by one. -/

namespace Sys2Proof.Machine

/-- One more step of any machine, when the step ends in a next state. -/
theorem core_run_succ (M : Host.Core) (k : Nat) {s u : M.State} (h : M.step s = .next u) :
    M.run (k + 1) s = M.run k u := by
  simp only [Host.Core.run, h]

/-- A run of any machine that ends in a next state took a step to a next state. -/
theorem core_step_of_run_succ (M : Host.Core) {k : Nat} {s t : M.State} (h : M.run (k + 1) s = .next t) :
    ∃ u, M.step s = .next u ∧ M.run k u = .next t := by
  simp only [Host.Core.run] at h
  cases hs : M.step s with
  | next u => exact ⟨u, rfl, by rw [hs] at h; exact h⟩
  | fault r => rw [hs] at h; cases h
  | refused r => rw [hs] at h; cases h

theorem run_zero (s : State) : Host.Core.run Sys2Proof.core 0 s = .next s := rfl

/-- A run of one more step begins with a step. -/
theorem run_succ {s u : State} (k : Nat) (h : step s = .next u) :
    Host.Core.run Sys2Proof.core (k + 1) s = Host.Core.run Sys2Proof.core k u :=
  core_run_succ Sys2Proof.core k h

/-- A run that ends in a next state took a step to a next state. -/
theorem step_of_run_succ {s t : State} {k : Nat} (h : Host.Core.run Sys2Proof.core (k + 1) s = .next t) :
    ∃ u, step s = .next u ∧ Host.Core.run Sys2Proof.core k u = .next t :=
  core_step_of_run_succ Sys2Proof.core h

/-- What holds at the start of a run and is kept by every step, with the number of steps left, holds at its end. -/
theorem run_keeps (P : Nat → State → Prop) (hstep : ∀ k s u, P (k + 1) s → step s = .next u → P k u) :
    ∀ (k : Nat) (s t : State), P k s → Host.Core.run Sys2Proof.core k s = .next t → P 0 t := by
  intro k
  induction k with
  | zero =>
    intro s t hp h
    cases h
    exact hp
  | succ k ih =>
    intro s t hp h
    obtain ⟨u, hu, hr⟩ := step_of_run_succ h
    exact ih u t (hstep k s u hp hu) hr

/-- A step with a command presented that is a processed TICK. -/
theorem step_tick {s : State} {p : Presentation} {rest : List Presentation} {srate lgfft : Nat} {r : Analysis}
    (hp : s.port = p :: rest) (hd : decode p.word = .ok (.tick srate lgfft)) (hs : s.ds ≠ .idle)
    (hl : legalOperands s.cfg srate (fftSize lgfft)) (hr : analyze s.cfg p.spectrum srate (fftSize lgfft) = .ok r) :
    step s = .next (processTick r (takeCommand p rest s)) := by
  have hx : step s = exec (.tick srate lgfft) (takeCommand p rest s) := by simp [step, hp, runWord, hd]
  rw [hx]
  exact execTick_processed (s := takeCommand p rest s) hs hl hr

/-- The step of a state that processes a tick. -/
theorem step_of_processesTick {s : State} {r : Analysis} (h : ProcessesTick s r) :
    ∃ p rest, s.port = p :: rest ∧ step s = .next (processTick r (takeCommand p rest s)) := by
  obtain ⟨p, rest, srate, lgfft, hp, hd, hs, hl, hr⟩ := h
  exact ⟨p, rest, hp, step_tick hp hd hs ((legalOperands_iff ..).mpr hl) hr⟩

@[simp] theorem feed_nil (s : State) : feed [] s = s := rfl

@[simp] theorem feed_cons (b : Bit) (bits : BitSequence) (s : State) :
    feed (b :: bits) s = feed bits (admitBit b s) := rfl

theorem feed_append (xs ys : BitSequence) (s : State) : feed (xs ++ ys) s = feed ys (feed xs s) := by
  simp [feed]

/-- The window of the last bits after one more bit. -/
theorem pushWindow_lastn (cfg : Config) (bits : BitSequence) (b : Bit) :
    pushWindow cfg (lastn bits cfg.winLen) b = lastn (bits ++ [b]) cfg.winLen := by
  simp only [pushWindow, lastn, List.length_append, List.length_drop, List.length_singleton]
  by_cases h : cfg.winLen ≤ bits.length
  · by_cases h0 : cfg.winLen = 0
    · rw [if_pos (by omega), h0]
      simp
    · rw [if_pos (by omega), ← List.drop_append_of_le_length (by omega), List.drop_drop]
      congr 1
      omega
  · rw [if_neg (by omega), show bits.length - cfg.winLen = 0 by omega,
      show bits.length + 1 - cfg.winLen = 0 by omega]
    simp

end Sys2Proof.Machine
end

