-- ==== Sys2Proof/Tests/Slice0.lean ====
section
/-! SUPPORT. The model's own tests. Every expected value is copied from a table, example or vector of spec/, named in
the test's comment. After them, one witness for each statement that has hypotheses. -/

namespace Sys2Proof.Tests

open Sys2Proof.Machine

/-! ## Helpers -/

/-- The outcome is a next state with the property. -/
def nextWith (P : State → Bool) : Host.Outcome State Fault Refusal → Bool
  | .next s => P s
  | .fault _ => false
  | .refused _ => false

/-- A listening state with the presence state `cs`, whose spectrum is that of `TICKM m0, m1` (30_encoding.md R62). -/
def listening (ds : DetectorState) (cs : Bit) (m0 m1 : Byte) : State :=
  { State.reset with ds := ds, cs := cs, spectrum := Memory.fill [(12, m0), (22, m1)] }

/-- The analysis of `TICKM m0, m1` under the document's configuration. -/
def analysisOf (m0 m1 : Byte) : Analysis := Analysis.ofMagnitudes Config.document m0 m1

/-! ## WellFormed: an ill-formed term for each check -/

theorem test_srate_of_24_bits : (Instr.tick 16777215 31).wellFormed = true := by decide
theorem test_srate_too_wide_refused : (Instr.tick 16777216 0).wellFormed = false := by decide
theorem test_lgfft_too_wide_refused : (Instr.tick 0 32).wellFormed = false := by decide

/-- A configuration with a window length other than its preamble's is not well formed (00_scope.md R6). -/
theorem test_config_window_refused : ¬ Config.WellFormed { Config.document with winLen := 7 } := by decide
theorem test_config_pmax_refused : ¬ Config.WellFormed { Config.document with pmax := some 24 } := by decide
theorem test_config_pmax_25 : Config.WellFormed { Config.document with pmax := some 25 } := by decide

/-! ## Decode: words written out from 30_encoding.md R51 to R53; values of 95_test_vectors.md 2.1 -/

theorem test_decode_nop : decodeTableWord 32 0b00000000000000000000000000000000 = some .nop := by decide
theorem test_decode_start : decodeTableWord 32 0b01000000000000000000000000000000 = some .start := by decide
theorem test_decode_stop : decodeTableWord 32 0b10000000000000000000000000000000 = some .stop := by decide
theorem test_decode_tick : decodeTableWord 32 0b11001011000000001010110001000100 = some (.tick 44100 11) := by decide
theorem test_decode_tick_widest : decodeTableWord 32 0xDFFFFFFF = some (.tick 16777215 31) := by decide
theorem test_decode_reserved_bit : decodeTableWord 32 0xE8006400 = none := by decide
theorem test_decode_operand_bits : decodeTableWord 32 0x00000001 = none ∧ decodeTableWord 32 0x41000000 = none := by
  decide
theorem test_encode_tick : encode (.tick 25600 8) = 0xC8006400 := by decide

/-! ## The analyzer and its operands -/

/-- Rows of 40_analyzer.md R75: `S = 20480`, `N = 256` rounds two ties up. -/
theorem test_windows_round_up : window0 Config.document 20480 256 = ⟨15, 3⟩ ∧ window1 Config.document 20480 256 = ⟨28, 3⟩ := by
  decide

/-- Rows of 40_analyzer.md R74, R75: 4900 legal, 4800 and 0 not, and no bins at `lgfft = 0`. -/
theorem test_legality : legalOperands Config.document 4900 256 ∧ ¬ legalOperands Config.document 4800 256 ∧
    ¬ legalOperands Config.document 0 2048 ∧ ¬ legalOperands Config.document 44100 1 := by decide

/-- 95_test_vectors.md 2.3: the window edges count, the bins next to them do not. -/
theorem test_window_edges :
    analyze Config.document (Memory.fill [(10, 200), (24, 50)]) 25600 256 = .ok ⟨200, 50, 200, some false⟩ ∧
    analyze Config.document (Memory.fill [(9, 255), (15, 255), (19, 255), (25, 255)]) 25600 256 =
      .ok ⟨0, 0, 0, none⟩ := ⟨rfl, rfl⟩

/-- 95_test_vectors.md 2.3: `{12: 90, 22: 91}` gives bit 1 at strength 91, `{12: 90, 22: 90}` null. -/
theorem test_bit_threshold :
    analyze Config.document (Memory.fill [(12, 90), (22, 91)]) 25600 256 = .ok ⟨90, 91, 91, some true⟩ ∧
    analyze Config.document (Memory.fill [(12, 90), (22, 90)]) 25600 256 = .ok ⟨90, 90, 90, none⟩ := ⟨rfl, rfl⟩

/-- 41_hysteresis.md R90 examples and the sequence `[150,100,70,100,150]` of R94 from `cs = 0`. -/
theorem test_hysteresis_sequence :
    hysteresis Config.document 141 false = true ∧ hysteresis Config.document 79 true = false ∧
    hysteresis Config.document 80 true = true ∧
    ([150, 100, 70, 100, 150] : List Byte).scanl (fun c m => hysteresis Config.document m c) false =
      [false, true, true, false, false, true] := by decide

/-! ## One step of each command -/

/-- 44_control.md R130. -/
theorem test_nop : nextWith (fun t => t == listening .receiving true 200 50)
    (exec .nop (listening .receiving true 200 50)) = true := by decide

/-- 44_control.md R131: START from reset, and START while RECEIVING (program P3, command 24). -/
theorem test_start : nextWith (fun t => t.ds == .syncing && !t.cs) (exec .start State.reset) = true := by decide
theorem test_start_ignored : nextWith (fun t => t == listening .receiving true 0 0)
    (exec .start (listening .receiving true 0 0)) = true := by decide

/-- 44_control.md R132; program P3, command 14: `cs` survives, the payload does not, no event. -/
theorem test_stop : nextWith (fun t => t.ds == .idle && t.cs && t.pbuf == [] && t.events == [])
    (exec .stop { listening .receiving true 0 0 with pbuf := [false, true, false, false] }) = true := by decide

/-- 44_control.md R133's example: BIT0 with `win = 1010101` and `cs = 0` locks. -/
theorem test_tick_locks : nextWith
    (fun t => t.ds == .receiving && t.cs && t.win == [] && t.events == [.ana (some false) 200, .sync])
    (exec (.tick 25600 8) { listening .syncing false 200 50 with
      win := [true, false, true, false, true, false, true] }) = true := by decide

/-- 95_test_vectors.md D-F2: 17 zeros and 8 ones hand over 17 zeros at bit 25. -/
theorem test_tick_hands_over : nextWith
    (fun t => t.ds == .syncing && t.pbuf == [] &&
      t.events == [.ana (some true) 200, .bit true, .data (List.replicate 17 false)])
    (exec (.tick 25600 8) { listening .receiving true 50 200 with
      pbuf := List.replicate 17 false ++ List.replicate 7 true }) = true := by decide

/-- Program P5, commands 1 and 4: an illegal word sets ILLCMD in IDLE, `TICK 0, 11` sets BADOPD in SYNCING. -/
theorem test_fault_bits :
    nextWith (fun t => t.ds == .idle && t.flt == 0b001 && t.events == []) (step (State.reset.withFetchWord 32 0xA0000000)) =
      true ∧
    nextWith (fun t => t.ds == .syncing && t.flt == 0b011 && t.events == [])
      (exec (.tick 0 11) { listening .syncing false 0 0 with flt := 0b001 }) = true := by decide

/-- 95_test_vectors.md D-F10: `PMAX = 26` full, the next bit overflows. -/
theorem test_overflow : nextWith
    (fun t => t.ds == .syncing && t.flt == 0b100 && t.pbuf == [] && t.events == [.ana (some true) 200])
    (exec (.tick 25600 8) { listening .receiving true 50 200 with
      cfg := { Config.document with pmax := some 26 }, pbuf := List.replicate 26 false }) = true := by decide

/-! ## Events and the wire -/

/-- 95_test_vectors.md 2.7. -/
theorem test_event_words :
    eventWords (.ana none 85) = some [0x10000255] ∧ eventWords (.bit true) = some [0x30000001] ∧
    eventWords (.data (bitsOfBytes [0x48, 0x49] ++ [true])) =
      some [0x40000011, 0x50000848, 0x50000849, 0x50000180] := by decide

/-- 43_frame.md R118's example, and the word of 30_encoding.md R62's pseudo-instructions. -/
theorem test_byte_view : byteView (bitsOfBytes [0x48, 0x49] ++ [true]) = [0x48, 0x49] ∧
    (bitStimulus true).word = 0xC8006400 := by decide

/-! ## Witnesses: for each statement with hypotheses, a state and operands that meet all of them -/

theorem witness_DecodeEncodeRoundTrip : (Instr.tick 16777215 31).WellFormed := by decide

theorem witness_DecodedWordIsItsEncoding : decode 0xDFFFFFFF = .ok (.tick 16777215 31) := rfl

theorem witness_StepRunsTheDecodedCommand :
    { State.reset with port := [tickM 0 200] }.port = tickM 0 200 :: [] ∧
      decode (tickM 0 200).word = .ok (.tick 25600 8) := ⟨rfl, rfl⟩

theorem witness_IllegalWordRaisesOnlyIllcmd :
    { State.reset with port := [⟨0x20000000, []⟩] }.port = (⟨0x20000000, []⟩ : Presentation) :: [] ∧
      decode 0x20000000 = .error .reservedBit := ⟨rfl, rfl⟩

theorem witness_NoCommandNothingChanges : State.reset.port = [] := rfl

theorem witness_StepIgnoresEarlierSpectra : (hostPresent (tickM 0 200) State.reset).port ≠ [] := by decide

theorem witness_StartEntersSyncingFromIdle :
    State.reset.ds = .idle ∧ (listening .syncing false 0 0).ds ≠ .idle := by decide

theorem witness_StopEntersIdle : exec .stop (listening .receiving true 0 0) =
    .next (enterDs .idle (listening .receiving true 0 0)) := rfl

theorem witness_TickInIdleChangesNothing : State.reset.ds = .idle := rfl

/-- The boundary of 40_analyzer.md R74: 4800 Hz is not legal at 256 points, 4900 Hz is. -/
theorem witness_IllegalOperandsRaiseOnlyBadopd : (listening .syncing false 0 0).ds ≠ .idle ∧
    ¬ WindowsInSpectrum (listening .syncing false 0 0).cfg 4800 (2 ^ 8) :=
  ⟨by decide, fun h => absurd ((legalOperands_iff ..).mpr h) (by decide)⟩

theorem witness_LegalTickAnalyzesItsWindows : (listening .syncing false 0 0).ds ≠ .idle ∧
    WindowsInSpectrum (listening .syncing false 0 0).cfg 4900 (2 ^ 8) :=
  ⟨by decide, (legalOperands_iff ..).mp (by decide)⟩

/-- The operands of 30_encoding.md R62 are legal under the document's configuration. -/
theorem legal_pseudo : WindowsInSpectrum Config.document 25600 (2 ^ 8) := (legalOperands_iff ..).mp (by decide)

/-- The strength 140 at `cs = 0`, the upper end of the rejected range, and 141 above it, in either listening state. -/
theorem witness_ProcessedTickUpdatesPresenceThenAdmits : ∀ d ∈ [DetectorState.syncing, DetectorState.receiving],
    (let s := listening d false 140 0;
      s.ds ≠ .idle ∧ WindowsInSpectrum s.cfg 25600 (2 ^ 8) ∧
        analyze s.cfg s.spectrum 25600 (2 ^ 8) = .ok (analysisOf 140 0) ∧
        false = presenceAfter s.cfg (analysisOf 140 0).strength s.cs ∧
        ¬ (s.cfg.minDet < (analysisOf 140 0).strength ∧ false = true)) ∧
    (let s := listening d false 141 0;
      s.ds ≠ .idle ∧ WindowsInSpectrum s.cfg 25600 (2 ^ 8) ∧
        analyze s.cfg s.spectrum 25600 (2 ^ 8) = .ok (analysisOf 141 0) ∧
        true = presenceAfter s.cfg (analysisOf 141 0).strength s.cs ∧ s.cfg.minDet < (analysisOf 141 0).strength) := by
  intro d hd
  simp only [List.mem_cons, List.not_mem_nil, or_false] at hd
  rcases hd with rfl | rfl <;>
    exact ⟨⟨nofun, legal_pseudo, rfl, by decide, by decide⟩, ⟨nofun, legal_pseudo, rfl, by decide, by decide⟩⟩

/-- A full window whose oldest bit is evicted, and the smallest strength that gives a bit. -/
theorem witness_AdmittedBitRollsTheWindow :
    let s := { listening .syncing true 90 91 with win := [false, true, false, true, false, true, false, false] }
    let w := [true, false, true, false, true, false, false, true]
    s.ds = .syncing ∧ WindowsInSpectrum s.cfg 25600 (2 ^ 8) ∧
      analyze s.cfg s.spectrum 25600 (2 ^ 8) = .ok (analysisOf 90 91) ∧
      s.cfg.minDet < (analysisOf 90 91).strength ∧
      presenceAfter s.cfg (analysisOf 90 91).strength s.cs = true ∧
      w = (if s.cfg.winLen < s.win.length + 1 then
        (s.win ++ [decide ((analysisOf 90 91).mag0 < (analysisOf 90 91).mag1)]).tail
        else s.win ++ [decide ((analysisOf 90 91).mag0 < (analysisOf 90 91).mag1)]) ∧
      w ≠ s.cfg.preamble :=
  ⟨by decide, legal_pseudo, rfl, by decide, by decide, by decide, by decide⟩

theorem witness_PreambleLocks :
    let s := { listening .syncing false 141 141 with win := [false, true, false, true, false, true, false, true] }
    s.ds = .syncing ∧ WindowsInSpectrum s.cfg 25600 (2 ^ 8) ∧
      analyze s.cfg s.spectrum 25600 (2 ^ 8) = .ok (analysisOf 141 141) ∧
      s.cfg.minDet < (analysisOf 141 141).strength ∧
      presenceAfter s.cfg (analysisOf 141 141).strength s.cs = true ∧
      (if s.cfg.winLen < s.win.length + 1 then
        (s.win ++ [decide ((analysisOf 141 141).mag0 < (analysisOf 141 141).mag1)]).tail
        else s.win ++ [decide ((analysisOf 141 141).mag0 < (analysisOf 141 141).mag1)]) = s.cfg.preamble :=
  ⟨by decide, legal_pseudo, rfl, by decide, by decide, by decide⟩

/-- Eight ones at length 24: the guard holds the terminator off, and `PMAX = 25` has room for one more. -/
theorem witness_AdmittedBitIsAppendedAndTested_append :
    let s := { listening .receiving true 50 200 with
      cfg := { Config.document with pmax := some 25 }
      pbuf := List.replicate 16 false ++ List.replicate 7 true }
    s.ds = .receiving ∧ WindowsInSpectrum s.cfg 25600 (2 ^ 8) ∧
      analyze s.cfg s.spectrum 25600 (2 ^ 8) = .ok (analysisOf 50 200) ∧
      s.cfg.minDet < (analysisOf 50 200).strength ∧
      presenceAfter s.cfg (analysisOf 50 200).strength s.cs = true ∧
      true = decide ((analysisOf 50 200).mag0 < (analysisOf 50 200).mag1) ∧
      (∀ m, s.cfg.pmax = some m → s.pbuf.length < m) ∧
      ¬ (s.cfg.guard < s.pbuf.length + 1 ∧ lastn (s.pbuf ++ [true]) s.cfg.termLen = ones s.cfg.termLen) :=
  ⟨by decide, (legalOperands_iff ..).mp (by decide), rfl, by decide, by decide, by decide,
    fun m h => by cases h; decide, by decide⟩

/-- Eight ones at length 25, the shortest terminated payload, filling `PMAX = 25`. -/
theorem witness_AdmittedBitIsAppendedAndTested_terminator :
    let s := { listening .receiving true 50 200 with
      cfg := { Config.document with pmax := some 25 }
      pbuf := List.replicate 17 false ++ List.replicate 7 true }
    s.ds = .receiving ∧ WindowsInSpectrum s.cfg 25600 (2 ^ 8) ∧
      analyze s.cfg s.spectrum 25600 (2 ^ 8) = .ok (analysisOf 50 200) ∧
      s.cfg.minDet < (analysisOf 50 200).strength ∧
      presenceAfter s.cfg (analysisOf 50 200).strength s.cs = true ∧
      true = decide ((analysisOf 50 200).mag0 < (analysisOf 50 200).mag1) ∧
      (∀ m, s.cfg.pmax = some m → s.pbuf.length < m) ∧
      s.cfg.guard < s.pbuf.length + 1 ∧ lastn (s.pbuf ++ [true]) s.cfg.termLen = ones s.cfg.termLen :=
  ⟨by decide, (legalOperands_iff ..).mp (by decide), rfl, by decide, by decide, by decide,
    fun m h => by cases h; decide, by decide, by decide⟩

theorem witness_FullBufferOverflows :
    let s := { listening .receiving true 50 200 with
      cfg := { Config.document with pmax := some 25 }, pbuf := List.replicate 25 false }
    s.ds = .receiving ∧ WindowsInSpectrum s.cfg 25600 (2 ^ 8) ∧
      analyze s.cfg s.spectrum 25600 (2 ^ 8) = .ok (analysisOf 50 200) ∧
      s.cfg.minDet < (analysisOf 50 200).strength ∧
      presenceAfter s.cfg (analysisOf 50 200).strength s.cs = true ∧ s.cfg.pmax = some s.pbuf.length :=
  ⟨by decide, (legalOperands_iff ..).mp (by decide), rfl, by decide, by decide, by decide⟩

theorem witness_AnalysisProperties :
    analyze Config.document (tickM 90 91).spectrum 25600 256 = .ok (analysisOf 90 91) := rfl

/-- `TICK 8000, 2` (95_test_vectors.md 2.3): both windows are bin 1. -/
theorem witness_CoincidingWindowsNeverGiveOne :
    window0 Config.document 8000 4 = window1 Config.document 8000 4 ∧
      analyze Config.document [(1, 200)] 8000 4 = .ok (analysisOf 200 200) := ⟨by decide, rfl⟩

/-- The lowest bin of `W0` at `TICK 44100, 1` is 0. -/
theorem witness_WindowsNeverReachBelowZero :
    Config.document.tol ≤ Config.document.f0 ∧ Config.document.tol ≤ Config.document.f1 ∧ 1 ≤ 44100 ∧
      InWindow (window0 Config.document 44100 2) 0 := by decide

/-- Two spectra that differ just outside both windows. -/
theorem witness_TickReadsOnlyItsWindows :
    let s := listening .syncing true 50 200
    (∀ a : Nat, InWindow (window0 s.cfg 25600 (2 ^ 8)) a ∨ InWindow (window1 s.cfg 25600 (2 ^ 8)) a →
      Memory.read (Memory.fill [(9, 255), (12, 50), (15, 255), (22, 200)]) a = Memory.read s.spectrum a) ∧
    exec (.tick 25600 8) s = .next (processTick (analysisOf 50 200) s) := by
  refine ⟨fun a h => ?_, rfl⟩
  have e0 : window0 (listening .syncing true 50 200).cfg 25600 (2 ^ 8) = ⟨12, 2⟩ := by decide
  have e1 : window1 (listening .syncing true 50 200).cfg 25600 (2 ^ 8) = ⟨22, 2⟩ := by decide
  rw [e0, e1] at h
  simp only [InWindow] at h
  have : a = 10 ∨ a = 11 ∨ a = 12 ∨ a = 13 ∨ a = 14 ∨ a = 20 ∨ a = 21 ∨ a = 22 ∨ a = 23 ∨ a = 24 := by omega
  rcases this with rfl | rfl | rfl | rfl | rfl | rfl | rfl | rfl | rfl | rfl <;> decide

/-- Both ends of each range of 41_hysteresis.md R93. -/
theorem witness_StrengthRangesOfTheGate : ∀ m ∈ ([0, 79, 80, 90, 91, 140, 141, 255] : List Byte),
    let s := listening .syncing true m 0
    s.ds ≠ .idle ∧ s.cfg.low = 80 ∧ s.cfg.minDet = 90 ∧ s.cfg.high = 140 ∧
      WindowsInSpectrum s.cfg 25600 (2 ^ 8) ∧
      analyze s.cfg s.spectrum 25600 (2 ^ 8) = .ok (analysisOf m 0) ∧ (analysisOf m 0).strength = m ∧
      exec (.tick 25600 8) s = .next (processTick (analysisOf m 0) s) := by
  intro m hm
  refine ⟨nofun, rfl, rfl, rfl, legal_pseudo, ?_⟩
  simp only [List.mem_cons, List.not_mem_nil, or_false] at hm
  rcases hm with rfl | rfl | rfl | rfl | rfl | rfl | rfl | rfl <;> exact ⟨rfl, rfl, rfl⟩

/-- A processed tick of strength 140, the strongest that is not above HIGH; the tick of strength 200 presented after
the run's one command is not bounded. -/
theorem witness_NothingAdmittedBeforeAStrongTick :
    let s := { State.reset with ds := .syncing, port := [tickM 0 140, tickM 0 200] }
    s.cs = false ∧ ProcessesTick s (analysisOf 0 140) ∧
    (∀ (j : Nat) (u : State) (r : Analysis), j < 1 → Host.Core.run Sys2Proof.core j s = .next u →
      ProcessesTick u r → r.strength ≤ s.cfg.high) ∧
    ∃ t, Host.Core.run Sys2Proof.core 1 s = .next t := by
  refine ⟨rfl, ⟨tickM 0 140, [tickM 0 200], 25600, 8, rfl, rfl, nofun, legal_pseudo, rfl⟩,
    fun j u r hj hu hpt => ?_, _, rfl⟩
  obtain rfl : j = 0 := by omega
  obtain rfl := Host.Outcome.next.inj hu
  obtain ⟨p, rest, srate, lgfft, hp, hd, -, -, hr⟩ := hpt
  obtain ⟨rfl, -⟩ := List.cons.inj hp
  have he : decode (tickM 0 140).word = .ok (.tick 25600 8) := rfl
  rw [he] at hd
  cases hd
  have ha : analyze Config.document (tickM 0 140).spectrum 25600 (2 ^ 8) = .ok (analysisOf 0 140) := rfl
  obtain rfl : analysisOf 0 140 = r := Except.ok.inj (ha.symm.trans hr)
  show (analysisOf 0 140).strength ≤ Config.document.high
  decide

theorem witness_WindowHoldsTheLastAdmittedBits :
    let s := listening .syncing true 0 0
    let bits := [true, false, true, false, false, true, true, false, true]
    s.cfg.WellFormed ∧ s.ds = .syncing ∧ s.win = [] ∧
      ∀ n, n ≤ bits.length → lastn (bits.take n) s.cfg.winLen ≠ s.cfg.preamble := by decide

/-- `0011` before the preamble (95_test_vectors.md 2.5): the lock is at bit 12. -/
theorem witness_LockAtTheFirstMatch :
    let s := listening .syncing true 0 0
    let bits := [false, false, true, true, true, false, true, false, true, false, true]
    s.cfg.WellFormed ∧ s.ds = .syncing ∧ s.win = [] ∧
      (∀ n, n ≤ bits.length → lastn (bits.take n) s.cfg.winLen ≠ s.cfg.preamble) ∧
      lastn (bits ++ [false]) s.cfg.winLen = s.cfg.preamble := by decide

/-- 95_test_vectors.md S4: 17 zeros and 8 ones are cut, 16 zeros and 8 ones are not. -/
theorem witness_FrameIsCutAtTheFirstRunOfOnes :
    let s := listening .receiving true 0 0
    let cut := List.replicate 17 false ++ List.replicate 8 true
    let uncut := List.replicate 16 false ++ List.replicate 8 true
    s.ds = .receiving ∧ s.pbuf = [] ∧
    (s.cfg.fits cut.length = true ∧
      (∀ n, n < cut.length → s.cfg.guard < n → lastn (cut.take n) s.cfg.termLen ≠ ones s.cfg.termLen) ∧
      s.cfg.guard < cut.length ∧ lastn cut s.cfg.termLen = ones s.cfg.termLen) ∧
    (s.cfg.fits uncut.length = true ∧
      (∀ n, n < uncut.length → s.cfg.guard < n → lastn (uncut.take n) s.cfg.termLen ≠ ones s.cfg.termLen) ∧
      ¬ (s.cfg.guard < uncut.length ∧ lastn uncut s.cfg.termLen = ones s.cfg.termLen)) := by decide

/-- BIT0 and BIT1 carry their bit (30_encoding.md R62). -/
theorem bitStimulus_carries (b : Bit) : CarriesBit Config.document (bitStimulus b) b := by
  cases b
  · exact ⟨25600, 8, analysisOf 200 50, rfl, by decide, rfl, rfl, by decide, by decide⟩
  · exact ⟨25600, 8, analysisOf 50 200, rfl, by decide, rfl, rfl, by decide, by decide⟩

/-- The 24 bits of "Hi." and a byte more, sent with BIT0 and BIT1. -/
theorem witness_WholeFrameIsDelivered :
    let p := bitsOfBytes [0x48, 0x69, 0x2E, 0x7E]
    let frame := bitsStimulus (wireFrame Config.document p)
    let s := { State.reset with ds := .syncing, port := frame ++ [] }
    s.cfg.WellFormed ∧ s.ds = .syncing ∧ s.win = [] ∧ s.port = frame ++ [] ∧
      List.Forall₂ (CarriesBit s.cfg) frame (wireFrame s.cfg p) ∧ DeliverablePayload s.cfg p ∧
      s.cfg.fits (p.length + s.cfg.termLen) = true := by
  refine ⟨by decide, rfl, rfl, rfl, ?_, ⟨by decide, ?_, by decide⟩, rfl⟩
  · exact List.forall₂_map_left_iff.mpr (List.forall₂_same.mpr fun b _ => bitStimulus_carries b)
  · intro n h1 h2
    have h1' : 24 < n := h1
    have h2' : n ≤ 32 := h2
    interval_cases n <;> decide

theorem witness_EventListsOfOneCommand : exec .stop State.reset = .next (enterDs .idle State.reset) := rfl

theorem witness_NoEventsUntilStart :
    let s := { State.reset with port := [tickM 0 200, ⟨0xA0000000, []⟩, stimulus .stop []] }
    s.ds = .idle ∧ (∀ p ∈ s.port.take 3, decode p.word ≠ .ok .start) ∧ s.win = [] ∧ s.pbuf = [] ∧
      ∃ t, Host.Core.run Sys2Proof.core 3 s = .next t := by
  refine ⟨rfl, fun p hp => ?_, rfl, rfl, _, rfl⟩
  simp only [List.take_succ_cons, List.take_zero, List.mem_cons, List.not_mem_nil, or_false] at hp
  rcases hp with rfl | rfl | rfl
  · rw [show decode (tickM 0 200).word = .ok (.tick 25600 8) from rfl]; nofun
  · rw [show decode 0xA0000000 = .error .reservedBit from rfl]; nofun
  · rw [show decode (stimulus .stop []).word = .ok .stop from rfl]; nofun

/-- The clauses with hypotheses: the longest payload with a port encoding, the shortest without one, and a full data
word. -/
theorem witness_EventWordFields :
    (List.replicate (2 ^ 28 - 1) true).length < 2 ^ 28 ∧ 2 ^ 28 ≤ (List.replicate (2 ^ 28) true).length ∧
      ([true, false, true, false, true, false, true, false] : BitSequence).length ≤ 8 := by
  simp only [List.length_replicate]
  decide

/-- The final partial word of 17 bits. -/
theorem witness_DataWordsCarryThePayload : 2 < ((List.replicate 17 true).length + 7) / 8 := by decide

theorem witness_EventPortIsInjective :
    portWords [.ana (some true) 200, .bit true, .data [true, false]] =
      some [0x100001C8, 0x30000001, 0x40000002, 0x50000280] := rfl

/-- The last whole byte of 17 bits. -/
theorem witness_ByteViewGroupsFromTheFirstBit : 1 < (List.replicate 17 true).length / 8 := by decide

theorem witness_ByteViewRecoversTheBytes : (List.replicate 7 true).length < 8 := by decide

/-- One presentation for each cause of a transition: START, STOP, the lock, the terminator, the overflow. -/
theorem witness_DetectorTransitions :
    let start := { State.reset with port := [stimulus .start []] }
    let stop := { listening .receiving true 0 0 with port := [stimulus .stop []] }
    let lock := { listening .syncing true 0 0 with
      port := [bitStimulus false], win := [true, false, true, false, true, false, true] }
    let cut := { listening .receiving true 0 0 with
      port := [bitStimulus true], pbuf := List.replicate 17 false ++ List.replicate 7 true }
    let full := { listening .receiving true 0 0 with
      port := [bitStimulus true], pbuf := List.replicate 25 false, cfg := { Config.document with pmax := some 25 } }
    ∀ s ∈ [start, stop, lock, cut, full], nextWith (fun t => t.ds != s.ds) (step s) = true := by decide

theorem witness_PresenceWrittenOnlyByProcessedTicks :
    exec (.tick 25600 8) (listening .syncing false 0 141) =
      .next (processTick (analysisOf 0 141) (listening .syncing false 0 141)) ∧
    (processTick (analysisOf 0 141) (listening .syncing false 0 141)).cs ≠ (listening .syncing false 0 141).cs :=
  ⟨rfl, by decide⟩

theorem witness_CommandsLeaveTheHostsSideAlone : exec .start State.reset = .next (enterDs .syncing State.reset) := rfl

theorem witness_FaultBitsAreSticky :
    step { State.reset with flt := 0b110, port := [⟨0x20000000, []⟩] } =
      .next { State.reset with flt := 0b111 } := rfl

/-- A fault-free state for each cause: an illegal word, illegal operands, a full buffer, and none. -/
theorem witness_CauseOfEachFaultBit :
    let illcmd := { State.reset with port := [⟨0x20000000, []⟩] }
    let badopd := { listening .syncing true 0 0 with port := [⟨0xC80012C0, []⟩] }
    let ovf := { listening .receiving true 0 0 with
      port := [bitStimulus true], pbuf := List.replicate 25 false, cfg := { Config.document with pmax := some 25 } }
    FaultFree illcmd ∧ nextWith (fun t => t.flt == 0b001) (step illcmd) = true ∧
    FaultFree badopd ∧ nextWith (fun t => t.flt == 0b010) (step badopd) = true ∧
    FaultFree ovf ∧ nextWith (fun t => t.flt == 0b100) (step ovf) = true := by decide

/-- A listening state with a partial preamble meets the invariants and is stepped. -/
theorem witness_InvariantKeptByEveryStep :
    let s := { listening .syncing true 0 0 with port := [bitStimulus true], win := [true, false] }
    s.cfg.WellFormed ∧ StateInvariant s ∧ ∃ t, step s = .next t :=
  ⟨by decide,
    { idle_empty := nofun
      syncing_no_payload := fun _ => ⟨rfl, by decide⟩
      receiving_no_window := nofun
      receiving_unterminated := nofun
      payload_fits := rfl
      window_fits := by decide },
    _, rfl⟩

theorem witness_InvariantHoldsAtReset : Config.WellFormed { Config.document with pmax := some 25 } := by decide

theorem witness_SpectrumStaysCanonical :
    MemoryCanonical { State.reset with spectrum := [(3, 7)], port := [tickM 50 200] } ∧
      ∃ t, step { State.reset with spectrum := [(3, 7)], port := [tickM 50 200] } = .next t := ⟨by decide, _, rfl⟩

end Sys2Proof.Tests
end

section
/-! The step (spec/00_scope.md R2, R7, R8): which command it runs, and that it always answers a next state. -/

namespace Sys2Proof.Machine

/-- A step with a presented command that decodes. -/
theorem step_of_decode {s : State} {p : Presentation} {rest : List Presentation} {i : Instr}
    (hp : s.port = p :: rest) (hd : decode p.word = .ok i) : step s = exec i (takeCommand p rest s) := by
  simp [step, hp, runWord, hd]

/-- START enters SYNCING from IDLE and keeps every other state (44_control.md R131). -/
theorem execStart_cases (s : State) :
    (s.ds = .idle ∧ execStart s = .next (enterDs .syncing s)) ∨ (s.ds ≠ .idle ∧ execStart s = .next s) := by
  by_cases hd : s.ds = .idle
  · exact .inl ⟨hd, if_pos hd⟩
  · exact .inr ⟨hd, if_neg hd⟩

/-- Every command completes. Only TICK reads the spectrum space, and `execTick_cases` says that the legality check
shuts out the one fault a read can raise (40_analyzer.md R74). -/
theorem exec_next (i : Instr) (s : State) : ∃ t, exec i s = .next t := by
  cases i with
  | nop => exact ⟨s, rfl⟩
  | start => rcases execStart_cases s with ⟨-, h⟩ | ⟨-, h⟩ <;> exact ⟨_, h⟩
  | stop => exact ⟨enterDs .idle s, rfl⟩
  | tick srate lgfft =>
    rcases execTick_cases srate lgfft s with ⟨-, h⟩ | ⟨-, -, h⟩ | ⟨-, -, r, -, h⟩ <;> exact ⟨_, h⟩

/-- Settles O8: waiting and ILLCMD are next states, and every decoded command completes. -/
theorem noCommandStopsTheBlock : Obligations.NoCommandStopsTheBlock := by
  intro s
  rcases step_cases s with ⟨-, h⟩ | ⟨p, rest, e, -, -, h⟩ | ⟨p, rest, i, -, -, h⟩
  · exact ⟨_, h⟩
  · exact ⟨_, h⟩
  · rw [h]
    exact exec_next i _

/-- Settles O5: taking the command is exactly the statement's update of `port` and `spectrum`. -/
theorem stepRunsTheDecodedCommand : Obligations.StepRunsTheDecodedCommand :=
  fun _ _ _ _ hp hd => step_of_decode hp hd

end Sys2Proof.Machine
end

section
/-! The state (spec/10_state.md): what a command writes, which elements it leaves alone, and the invariants of R20. -/

namespace Sys2Proof.Machine

/-! ### What a command can do to the state -/

/-- What a command that completes has done: nothing, a write of `ds`, BADOPD, or a processed tick. -/
theorem exec_cases {i : Instr} {s t : State} (h : exec i s = .next t) :
    t = s ∨ (∃ d, t = enterDs d s) ∨ t = raiseFault .badopd s ∨
    ∃ srate lgfft r, i = .tick srate lgfft ∧ s.ds ≠ .idle ∧ legalOperands s.cfg srate (2 ^ lgfft) ∧
      analyze s.cfg s.spectrum srate (2 ^ lgfft) = .ok r ∧ t = processTick r s := by
  cases i with
  | nop =>
    cases h
    exact .inl rfl
  | start =>
    rcases execStart_cases s with ⟨-, e⟩ | ⟨-, e⟩ <;> cases e.symm.trans h
    · exact .inr (.inl ⟨_, rfl⟩)
    · exact .inl rfl
  | stop =>
    cases h
    exact .inr (.inl ⟨_, rfl⟩)
  | tick srate lgfft =>
    rcases execTick_cases srate lgfft s with ⟨-, e⟩ | ⟨-, -, e⟩ | ⟨hd, hl, r, hr, e⟩ <;> cases e.symm.trans h
    · exact .inl rfl
    · exact .inr (.inr (.inl rfl))
    · exact .inr (.inr (.inr ⟨srate, lgfft, r, rfl, hd, hl, hr, rfl⟩))

/-- Settles O42: of the four things a command can do, only a processed tick writes `cs`. -/
theorem presenceWrittenOnlyByProcessedTicks : Obligations.PresenceWrittenOnlyByProcessedTicks := by
  intro i s t h hne
  rcases exec_cases h with rfl | ⟨d, rfl⟩ | rfl | ⟨srate, lgfft, r, hi, hd, hl, hr, rfl⟩
  · exact absurd rfl hne
  · exact absurd (enterDs_cs d s) hne
  · exact absurd (raiseFault_cs .badopd s) hne
  · obtain ⟨hcs, -⟩ := processTick_frame r s
    exact ⟨hd, srate, lgfft, r, hi, (legalOperands_iff ..).mp hl, hr, hcs.trans (presenceAfter_eq ..).symm⟩

/-- No command writes the configuration or the host's fields (10_state.md R12, 20_memory.md R30). -/
theorem exec_frame {i : Instr} {s t : State} (h : exec i s = .next t) :
    t.cfg = s.cfg ∧ t.port = s.port ∧ t.spectrum = s.spectrum := by
  rcases exec_cases h with rfl | ⟨d, rfl⟩ | rfl | ⟨-, -, r, -, -, -, -, rfl⟩
  · exact ⟨rfl, rfl, rfl⟩
  · exact ⟨enterDs_cfg .., enterDs_port .., enterDs_spectrum ..⟩
  · exact ⟨raiseFault_cfg .., raiseFault_port .., raiseFault_spectrum ..⟩
  · obtain ⟨-, hcfg, hspec, hport⟩ := processTick_frame r s
    exact ⟨hcfg, hport, hspec⟩

/-- Settles O43: the spectrum field is the same list after a command, so every bin reads the same. -/
theorem commandsLeaveTheHostsSideAlone : Obligations.CommandsLeaveTheHostsSideAlone := by
  intro i s t h
  obtain ⟨hcfg, hport, hspec⟩ := exec_frame h
  exact ⟨hcfg, hport, fun a => by rw [hspec]⟩

/-! ### The fault register -/

/-- A TICK does not read the fault register. -/
theorem execTick_withFaults (srate lgfft : Nat) (s : State) :
    ∃ (t : State) (raised : BitVec 3), ∀ f : BitVec 3,
      execTick srate lgfft { s with flt := f } = .next { t with flt := f ||| raised } := by
  rcases execTick_cases srate lgfft s with ⟨hd, -⟩ | ⟨hd, hl, -⟩ | ⟨hd, hl, r, hr, -⟩
  · exact ⟨s, 0, fun f => by simp [execTick, hd]⟩
  · exact ⟨s, FaultBit.badopd.mask, fun f => (if_neg hd).trans (if_neg hl)⟩
  · obtain ⟨x, hx⟩ := processTick_withFaults r s
    exact ⟨processTick r s, x, fun f => by
      rw [execTick_processed (s := { s with flt := f }) hd hl hr, hx f]⟩

/-- No command reads the fault register. -/
theorem exec_withFaults (i : Instr) (s : State) :
    ∃ (t : State) (raised : BitVec 3), ∀ f : BitVec 3,
      exec i { s with flt := f } = .next { t with flt := f ||| raised } := by
  cases i with
  | nop => exact ⟨s, 0, fun f => by simp [exec, execNop]⟩
  | start =>
    by_cases hd : s.ds = .idle
    · exact ⟨enterDs .syncing s, 0, fun f => by simp [exec, execStart, hd, enterDs]⟩
    · exact ⟨s, 0, fun f => by simp [exec, execStart, hd]⟩
  | stop => exact ⟨enterDs .idle s, 0, fun f => by simp [exec, execStop, enterDs]⟩
  | tick srate lgfft => exact execTick_withFaults srate lgfft s

/-- Settles O45: neither the taking of a command nor its decoding looks at `flt`, and no command reads it. -/
theorem faultBitsChangeNothing : Obligations.FaultBitsChangeNothing := by
  intro s
  rcases step_cases s with ⟨hp, -⟩ | ⟨p, rest, e, hp, hd, -⟩ | ⟨p, rest, i, hp, hd, -⟩
  · exact ⟨s, 0, fun f => by simp [step, hp]⟩
  · exact ⟨takeCommand p rest s, FaultBit.illcmd.mask, fun f => by
      simp [step, hp, runWord, hd, illegalCommand, raiseFault, takeCommand]⟩
  · obtain ⟨t, raised, ht⟩ := exec_withFaults i (takeCommand p rest s)
    exact ⟨t, raised, fun f => (step_of_decode (s := { s with flt := f }) hp hd).trans (ht f)⟩

/-- Settles O44: by `faultBitsChangeNothing` the new `flt` is the old one OR the raised bits. -/
theorem faultBitsAreSticky : Obligations.FaultBitsAreSticky := by
  intro s t h
  obtain ⟨u, raised, hu⟩ := faultBitsChangeNothing s
  cases h.symm.trans (hu s.flt)
  have absorb : ∀ a b : BitVec 3, a &&& (a ||| b) = a := by decide
  exact absorb s.flt raised

/-! ### The invariants of R20 -/

/-- The invariants speak of `ds`, `win`, `pbuf` and the configuration only. -/
theorem stateInvariant_of_agree {s t : State} (h : StateInvariant s) (hds : t.ds = s.ds) (hwin : t.win = s.win)
    (hpbuf : t.pbuf = s.pbuf) (hcfg : t.cfg = s.cfg) : StateInvariant t := by
  obtain ⟨ha, hb, hc, hd, he, hw⟩ := h
  constructor <;> simpa only [hds, hwin, hpbuf, hcfg]

/-- The empty sequences meet the invariants in every detector state: the preamble is not
empty, and an empty payload is not longer than `GUARD`. -/
theorem stateInvariant_of_empty {s : State} (hwf : s.cfg.WellFormed) (hwin : s.win = []) (hpbuf : s.pbuf = []) :
    StateInvariant s where
  idle_empty _ := ⟨hwin, hpbuf⟩
  syncing_no_payload _ := ⟨hpbuf, hwin ▸ (wellFormed_preamble hwf).symm⟩
  receiving_no_window _ := hwin
  receiving_unterminated _ hlong := by simp [hpbuf] at hlong
  payload_fits := hpbuf ▸ fits_mono (Nat.zero_le _) (wellFormed_fits hwf)
  window_fits := by simp [hwin]

/-- One bit more keeps the window within `WINLEN` (42_sync.md R101). -/
theorem pushWindow_length_le (cfg : Config) {win : BitSequence} (b : Bit) (h : win.length ≤ cfg.winLen) :
    (pushWindow cfg win b).length ≤ cfg.winLen := by
  unfold pushWindow
  split
  · simpa using h
  · omega

/-- The window that rolls without a match. -/
theorem stateInvariant_roll {s : State} {b : Bit} (h : StateInvariant s) (hds : s.ds = .syncing)
    (hne : pushWindow s.cfg s.win b ≠ s.cfg.preamble) :
    StateInvariant { s with win := pushWindow s.cfg s.win b } where
  idle_empty hi := nomatch hds.symm.trans hi
  syncing_no_payload _ := ⟨(h.syncing_no_payload hds).1, hne⟩
  receiving_no_window hr := nomatch hds.symm.trans hr
  receiving_unterminated hr := nomatch hds.symm.trans hr
  payload_fits := h.payload_fits
  window_fits := pushWindow_length_le s.cfg b h.window_fits

/-- The append that fits and does not complete a terminator. -/
theorem stateInvariant_appendBit {s : State} {b : Bit} (h : StateInvariant s) (hds : s.ds = .receiving)
    (hfits : s.cfg.fits (s.pbuf.length + 1) = true) (hnt : ¬ terminated s.cfg (s.pbuf ++ [b])) :
    StateInvariant (appendBit b s) where
  idle_empty hi := nomatch hds.symm.trans hi
  syncing_no_payload hs := nomatch hds.symm.trans hs
  receiving_no_window _ := h.receiving_no_window hds
  receiving_unterminated _ hlong hones := hnt ⟨hlong, hones⟩
  payload_fits := by simpa using hfits
  window_fits := h.window_fits

/-- An admitted bit keeps the invariants: the rolled window is not the preamble, the appended payload is not
terminated, and every other case empties both sequences. -/
theorem admitBit_keepsInvariant (b : Bit) {s : State} (hwf : s.cfg.WellFormed) (h : StateInvariant s) :
    StateInvariant (admitBit b s) := by
  rcases admitBit_cases b s with ⟨-, e⟩ | ⟨hds, hne, e⟩ | ⟨-, -, e⟩ | ⟨hds, hfits, hnt, e⟩ | ⟨-, -, -, e⟩ |
    ⟨-, -, e⟩ <;> rw [e]
  · exact h
  · exact stateInvariant_roll h hds hne
  · exact stateInvariant_of_empty hwf (lock_win s) (lock_pbuf s)
  · exact stateInvariant_appendBit h hds hfits hnt
  · exact stateInvariant_of_empty hwf (handOver_win _) (handOver_pbuf _)
  · exact stateInvariant_of_empty hwf (overflow_win s) (overflow_pbuf s)

/-- A processed tick keeps the invariants: the observation writes none of their fields. -/
theorem processTick_keepsInvariant (r : Analysis) {s : State} (hwf : s.cfg.WellFormed) (h : StateInvariant s) :
    StateInvariant (processTick r s) := by
  have hobs : StateInvariant (observe r s) :=
    stateInvariant_of_agree h (observe_ds r s) (observe_win r s) (observe_pbuf r s) (observe_cfg r s)
  rcases processTick_cases r s with e | ⟨b, -, -, -, e⟩ <;> rw [e]
  · exact hobs
  · exact admitBit_keepsInvariant b hwf hobs

/-- Every command keeps the invariants. -/
theorem exec_keepsInvariant {i : Instr} {s t : State} (hwf : s.cfg.WellFormed) (h : StateInvariant s)
    (ht : exec i s = .next t) : StateInvariant t := by
  rcases exec_cases ht with rfl | ⟨d, rfl⟩ | rfl | ⟨-, -, r, -, -, -, -, rfl⟩
  · exact h
  · exact stateInvariant_of_empty hwf (enterDs_win d s) (enterDs_pbuf d s)
  · exact stateInvariant_of_agree h rfl rfl rfl rfl
  · exact processTick_keepsInvariant r hwf h

/-- Settles O51: the taking of a command and ILLCMD write no field of the invariants, and every command keeps
them. -/
theorem invariantKeptByEveryStep : Obligations.InvariantKeptByEveryStep := by
  intro s t hwf h ht
  have taken (p : Presentation) (rest : List Presentation) : StateInvariant (takeCommand p rest s) :=
    stateInvariant_of_agree h rfl rfl rfl rfl
  rcases step_cases s with ⟨-, e⟩ | ⟨p, rest, -, -, -, e⟩ | ⟨p, rest, i, -, -, e⟩ <;> rw [e] at ht
  · cases ht
    exact h
  · cases ht
    exact stateInvariant_of_agree (taken p rest) rfl rfl rfl rfl
  · exact exec_keepsInvariant (s := takeCommand p rest s) hwf (taken p rest) ht

/-- Settles O50: reset leaves both sequences empty. -/
theorem invariantHoldsAtReset : Obligations.InvariantHoldsAtReset := by
  have reset (cfg : Config) (hwf : cfg.WellFormed) : StateInvariant (State.resetWith cfg) :=
    stateInvariant_of_empty hwf rfl rfl
  exact ⟨reset Config.document (by decide), reset⟩

/-! ### Reset and the status outputs -/

/-- Settles O47: every field of the reset state and of the document's configuration is the listed value by
definition. -/
theorem resetState : Obligations.ResetState :=
  ⟨fun _ => ⟨rfl, rfl, rfl, rfl, rfl, rfl⟩, rfl, rfl, rfl, rfl, rfl, rfl, rfl, rfl, rfl, rfl, rfl, rfl, rfl, rfl, rfl⟩

/-- The status code tells the detector states apart (10_state.md R10). -/
theorem code_inj {d e : DetectorState} : d.code = e.code ↔ d = e := by
  cases d <;> cases e <;> decide

/-- The status code 11 never occurs (10_state.md R10). -/
theorem code_ne_eleven (d : DetectorState) : d.code ≠ 0b11 := by
  cases d <;> decide

/-- Settles O49: 00, 01 and 10 are the codes of the three detector states, which differ. -/
theorem statusOutputsShowTheState : Obligations.StatusOutputsShowTheState := by
  intro s
  have hcs : BitVec.ofBool s.cs = 1 ↔ s.cs = true := by cases s.cs <;> decide
  exact ⟨code_inj (e := .idle), code_inj (e := .syncing), code_inj (e := .receiving), code_ne_eleven s.ds, hcs, rfl⟩

end Sys2Proof.Machine
end

section
/-! The spectrum space (spec/20_memory.md): which bins a TICK reads, whose spectrum a step sees, and the canonical form
of the lists. -/

namespace Sys2Proof.Machine

/-! ### What a command reads of the spectrum -/

/-- A TICK in IDLE (44_control.md R134). -/
theorem execTick_idle (srate lgfft : Nat) {s : State} (hd : s.ds = .idle) : execTick srate lgfft s = .next s :=
  if_pos hd

/-- A TICK with illegal operands while listening (40_analyzer.md R74). -/
theorem execTick_illegal {srate lgfft : Nat} {s : State} (hd : s.ds ≠ .idle)
    (hl : ¬ legalOperands s.cfg srate (2 ^ lgfft)) : execTick srate lgfft s = .next (raiseFault .badopd s) :=
  (if_neg hd).trans (if_neg hl)

/-- Settles O26: the checks before the analyzer do not read the spectrum, the analysis is the same by `analyze_congr`,
and the stages after it do not read the spectrum either. -/
theorem tickReadsOnlyItsWindows : Obligations.TickReadsOnlyItsWindows := by
  intro s t X srate lgfft hagree ht
  rcases execTick_cases srate lgfft s with ⟨hd, e⟩ | ⟨hd, hl, e⟩ | ⟨hd, hl, r, hr, e⟩ <;> cases e.symm.trans ht
  · exact execTick_idle srate lgfft (s := { s with spectrum := X }) hd
  · exact execTick_illegal (s := { s with spectrum := X }) hd hl
  · have hrX : analyze s.cfg X srate (2 ^ lgfft) = .ok r := (analyze_congr hl hagree).trans hr
    rw [← processTick_withSpectrum]
    exact execTick_processed (s := { s with spectrum := X }) hd hl hrX

/-- A step with a command presented takes the oldest one and runs its word. -/
theorem step_of_port {s : State} {p : Presentation} {rest : List Presentation} (hp : s.port = p :: rest) :
    step s = runWord p.word (takeCommand p rest s) := by
  simp only [step, hp]

/-- Settles O9: the taking of the command overwrites the spectrum field before anything reads it. -/
theorem stepIgnoresEarlierSpectra : Obligations.StepIgnoresEarlierSpectra := by
  intro s X hne
  obtain ⟨p, rest, hp⟩ := List.exists_cons_of_ne_nil hne
  have htaken : takeCommand p rest { s with spectrum := X } = takeCommand p rest s := rfl
  rw [step_of_port (s := { s with spectrum := X }) hp, htaken, step_of_port hp]

/-! ### The canonical form -/

/-- The canonical form speaks of the spectrum and the port only. -/
theorem memoryCanonical_of_agree {s t : State} (h : MemoryCanonical s) (hspec : t.spectrum = s.spectrum)
    (hport : t.port = s.port) : MemoryCanonical t := by
  rwa [MemoryCanonical, hspec, hport]

/-- The taken command's spectrum was canonical in the port, and so are the spectra left there. -/
theorem takeCommand_canonical {s : State} {p : Presentation} {rest : List Presentation} (h : MemoryCanonical s)
    (hp : s.port = p :: rest) : MemoryCanonical (takeCommand p rest s) := by
  obtain ⟨-, hport⟩ := h
  rwa [hp, List.forall_mem_cons] at hport

/-- A step keeps the canonical form: it takes a command, and no command writes the host's fields. -/
theorem step_canonical {s t : State} (h : MemoryCanonical s) (ht : step s = .next t) : MemoryCanonical t := by
  rcases step_cases s with ⟨-, e⟩ | ⟨p, rest, -, hp, -, e⟩ | ⟨p, rest, i, hp, -, e⟩ <;> rw [e] at ht
  · cases ht
    exact h
  · cases ht
    exact memoryCanonical_of_agree (takeCommand_canonical h hp) (illegalCommand_spectrum _) (illegalCommand_port _)
  · obtain ⟨-, hport, hspec⟩ := exec_frame ht
    exact memoryCanonical_of_agree (takeCommand_canonical h hp) hspec hport

/-- The presentation of a canonical spectrum keeps the canonical form. -/
theorem hostPresent_canonical {s : State} {p : Presentation} (h : MemoryCanonical s)
    (hp : Memory.wf p.spectrum = true) : MemoryCanonical (hostPresent p s) := by
  obtain ⟨hspec, hport⟩ := h
  refine ⟨hspec, fun q hq => ?_⟩
  rcases List.mem_append.mp hq with hq | hq
  · exact hport q hq
  · rwa [List.mem_singleton.mp hq]

/-- Settles O52: reset lists no bin and holds no command, a step keeps the form by `step_canonical`, and the spectrum
of a stimulus line is a fill, which is canonical. -/
theorem spectrumStaysCanonical : Obligations.SpectrumStaysCanonical :=
  ⟨⟨rfl, nofun⟩, fun _ _ => step_canonical, fun _ _ cells h => hostPresent_canonical h (wf_fill cells)⟩

end Sys2Proof.Machine
end

section
/-! The command words (spec/30_encoding.md R51 to R55): the decoder and the encoder are inverse to each other, and the
fields of a word in arithmetic. -/

namespace Sys2Proof

/-! ### Decoding an encoding, and encoding what was decoded -/

/-- A TICK word gives its two fields back (R53). -/
theorem decode_assemble_tick (lg : BitVec 5) (sr : BitVec 24) :
    decode (assemble 0b11 lg sr) = .ok (.tick sr.toNat lg.toNat) := by
  simp [decode]

/-- The operand bits of a word assembled from zero operands (R52). -/
theorem operandField_assemble_zero (op : BitVec 2) : operandField (assemble op 0 0) = 0 :=
  (operandField_eq_zero _).mpr ⟨lgfftField_assemble .., srateField_assemble ..⟩

/-- A word with zero operands and `op` other than 11 stands for the command of its `op` (R52). -/
theorem decode_assemble_zero {op : BitVec 2} (h : op ≠ 0b11) :
    decode (assemble op 0 0) = if op = 0b00 then .ok .nop else if op = 0b01 then .ok .start else .ok .stop := by
  rw [decode, rsvField_assemble, opField_assemble, operandField_assemble_zero, if_neg (by decide), if_neg h,
    if_neg (not_not_intro rfl)]

/-- The operands of a well-formed TICK fit their fields (R54). -/
theorem wellFormed_tick (srate lgfft : Nat) : (Instr.tick srate lgfft).WellFormed ↔ srate < 2 ^ 24 ∧ lgfft < 2 ^ 5 := by
  simp only [Instr.WellFormed, Instr.wellFormed, srateWidth, lgfftWidth, Bool.and_eq_true, decide_eq_true_eq]

/-- Settles O1: NOP, START and STOP are told apart by `op` over zero operand bits; the operands of a well-formed TICK
are not cut by their fields. -/
theorem decodeEncodeRoundTrip : Obligations.DecodeEncodeRoundTrip := by
  intro i hi
  cases i with
  | nop => exact decode_assemble_zero (op := 0b00) (by decide)
  | start => exact decode_assemble_zero (op := 0b01) (by decide)
  | stop => exact decode_assemble_zero (op := 0b10) (by decide)
  | tick srate lgfft =>
    obtain ⟨hs, hl⟩ := (wellFormed_tick srate lgfft).mp hi
    rw [encode, decode_assemble_tick, BitVec.toNat_ofNat, BitVec.toNat_ofNat, Nat.mod_eq_of_lt hs,
      Nat.mod_eq_of_lt hl]

/-- A word with zero reserved and operand bits is its `op` field alone. -/
theorem eq_assemble_op {w : Word} (hr : rsvField w = 0) (hz : operandField w = 0) : w = assemble (opField w) 0 0 := by
  obtain ⟨hl, hs⟩ := (operandField_eq_zero w).mp hz
  rw [← hl, ← hs, assemble_fields w hr]

/-- Settles O2: in each case of the decoder that answers a command the reserved bit is 0, so the word is assembled from
its fields, which are those of the command's encoding. -/
theorem decodedWordIsItsEncoding : Obligations.DecodedWordIsItsEncoding := by
  intro w i hi
  rcases decode_cases w with ⟨-, h⟩ | ⟨hr, ho, h⟩ | ⟨-, -, -, h⟩ | ⟨hr, hz, ⟨ho, h⟩ | ⟨ho, h⟩ | ⟨ho, h⟩⟩ <;>
    rw [h] at hi <;> cases hi
  · refine ⟨(wellFormed_tick ..).mpr ⟨(srateField w).isLt, (lgfftField w).isLt⟩, ?_⟩
    rw [encode, BitVec.ofNat_toNat, BitVec.ofNat_toNat, BitVec.setWidth_eq, BitVec.setWidth_eq, ← ho,
      assemble_fields w hr]
  all_goals exact ⟨rfl, by rw [eq_assemble_op hr hz, ho, encode]⟩

/-- The words that decode to a command are its encoding alone. -/
theorem decode_eq_ok_iff (w : Word) (i : Instr) : decode w = .ok i ↔ i.WellFormed ∧ encode i = w := by
  refine ⟨decodedWordIsItsEncoding w i, ?_⟩
  rintro ⟨hi, rfl⟩
  exact decodeEncodeRoundTrip i hi

/-- The illegal words by their fields (R55). -/
theorem decode_eq_error_iff (w : Word) :
    (∃ e, decode w = .error e) ↔ rsvField w = 1 ∨ (opField w ≠ 0b11 ∧ operandField w ≠ 0) := by
  rcases decode_cases w with ⟨hr, h⟩ | ⟨hr, ho, h⟩ | ⟨hr, ho, hz, h⟩ | ⟨hr, hz, ⟨ho, h⟩ | ⟨ho, h⟩ | ⟨ho, h⟩⟩
  · exact ⟨fun _ => .inl hr, fun _ => ⟨_, h⟩⟩
  · simp [h, hr, ho]
  · exact ⟨fun _ => .inr ⟨ho, hz⟩, fun _ => ⟨_, h⟩⟩
  all_goals simp [h, hr, hz]

/-! ### The fields in arithmetic -/

/-- Concatenation places the left word above the right one. -/
theorem toNat_append_eq_add {m n : Nat} (x : BitVec m) (y : BitVec n) :
    (x ++ y).toNat = x.toNat * 2 ^ n + y.toNat := by
  rw [BitVec.toNat_append, ← Nat.shiftLeft_add_eq_or_of_lt y.isLt, Nat.shiftLeft_eq]

theorem assemble_toNat (op : BitVec 2) (lg : BitVec 5) (sr : BitVec 24) :
    (assemble op lg sr).toNat = op.toNat * 2 ^ 30 + lg.toNat * 2 ^ 24 + sr.toNat := by
  simp only [assemble, toNat_append_eq_add, BitVec.ofNat_eq_ofNat, BitVec.toNat_zero]
  omega

theorem opField_toNat (w : Word) : (opField w).toNat = w.toNat / 2 ^ 30 := by
  have := w.isLt
  rw [opField, BitVec.extractLsb_toNat, Nat.shiftRight_eq_div_pow]
  omega

theorem rsvField_toNat (w : Word) : (rsvField w).toNat = w.toNat / 2 ^ 29 % 2 := by
  rw [rsvField, BitVec.extractLsb_toNat, Nat.shiftRight_eq_div_pow]

theorem operandField_toNat (w : Word) : (operandField w).toNat = w.toNat % 2 ^ 29 := by
  rw [operandField, BitVec.extractLsb_toNat, Nat.shiftRight_zero]

/-- The word of a TICK with operands that fit their fields (R53). -/
theorem encode_tick_toNat {srate lgfft : Nat} (hs : srate < 2 ^ 24) (hl : lgfft < 2 ^ 5) :
    (encode (.tick srate lgfft)).toNat = 0xC0000000 + lgfft * 0x01000000 + srate := by
  rw [encode, assemble_toNat, BitVec.toNat_ofNat, BitVec.toNat_ofNat, Nat.mod_eq_of_lt hs, Nat.mod_eq_of_lt hl]
  rfl

/-- Settles O3: a word decodes to a command when it is the command's encoding, whose value is a literal or that of
`encode_tick_toNat`; the fields that make a word illegal are quotients and remainders of it. -/
theorem decodeFollowsTheCommandWords : Obligations.DecodeFollowsTheCommandWords := by
  have fixed : ∀ (w : Word) (i : Instr), i.WellFormed → (decode w = .ok i ↔ w = encode i) := fun w i hi => by
    rw [decode_eq_ok_iff, and_iff_right hi, eq_comm]
  refine fun w => ⟨fixed w .nop rfl, fixed w .start rfl, fixed w .stop rfl, fun srate lgfft => ?_, ?_⟩
  · rw [decode_eq_ok_iff, wellFormed_tick, and_assoc]
    refine and_congr_right fun hs => and_congr_right fun hl => ?_
    rw [← encode_tick_toNat hs hl, BitVec.toNat_inj, eq_comm]
  · rw [decode_eq_error_iff, ← opField_toNat, ← rsvField_toNat, ← operandField_toNat]
    simp [← BitVec.toNat_inj]

/-- Settles O4: each of the seven words is a literal. -/
theorem sampleWordsDecode : Obligations.SampleWordsDecode :=
  ⟨rfl, rfl, rfl, rfl, rfl, ⟨_, rfl⟩, ⟨_, rfl⟩⟩

end Sys2Proof
end

section
/-! The event port (spec/30_encoding.md R59, R60): the fields of its words, the bits of a payload in its data words, and
the reading of an event list back from its words. -/

namespace Sys2Proof.Machine

/-! ### The bits of a byte -/

/-- The sum of eight bits with the weights of a byte fits the byte. -/
theorem sum_bits_lt (b : Nat → Bool) : ∑ j ∈ Finset.range 8, (b j).toNat * 2 ^ (7 - j) < 2 ^ 8 :=
  calc ∑ j ∈ Finset.range 8, (b j).toNat * 2 ^ (7 - j)
    _ ≤ ∑ j ∈ Finset.range 8, 1 * 2 ^ (7 - j) :=
      Finset.sum_le_sum fun j _ => Nat.mul_le_mul_right _ (Bool.toNat_le _)
    _ < 2 ^ 8 := by decide

/-- The bits of a byte as the binary digits of their sum. -/
theorem sum_bits_digit (b : Nat → Bool) {j : Nat} (hj : j < 8) :
    (∑ i ∈ Finset.range 8, (b i).toNat * 2 ^ (7 - i)) / 2 ^ (7 - j) % 2 = (b j).toNat := by
  have bit := fun j => Bool.toNat_le (b j)
  simp only [Finset.sum_range_succ, Finset.sum_range_zero]
  have := bit 0; have := bit 1; have := bit 2; have := bit 3
  have := bit 4; have := bit 5; have := bit 6; have := bit 7
  interval_cases j <;> omega

/-- A packed byte is the sum of R34, missing bits counting 0. -/
theorem packByte_toNat (bits : BitSequence) :
    (packByte bits).toNat = ∑ j ∈ Finset.range 8, (bits[j]?.getD false).toNat * 2 ^ (7 - j) := by
  have term : ∀ j ∈ Finset.range 8, (if bits.getD j false then 2 ^ (7 - j) else 0) =
      (bits[j]?.getD false).toNat * 2 ^ (7 - j) := fun j _ => by
    rw [List.getD_eq_getElem?_getD]
    cases bits[j]?.getD false <;> simp
  rw [packByte, BitVec.toNat_ofNat, ← Nat.mod_eq_of_lt (sum_bits_lt fun j => bits[j]?.getD false),
    ← Finset.sum_congr rfl term]
  rfl

/-- Bit `7 - j` of a packed byte is the bit of index `j` (R34). -/
theorem packByte_bit (bits : BitSequence) {j : Nat} (hj : j < 8) :
    (packByte bits).getLsbD (7 - j) = bits[j]?.getD false := by
  rw [← BitVec.testBit_toNat, packByte_toNat, Nat.testBit_eq_decide_div_mod_eq,
    sum_bits_digit (fun j => bits[j]?.getD false) hj]
  simp

/-- Only the bits that are there count. -/
theorem packByte_toNat_of_length_le {bits : BitSequence} (h : bits.length ≤ 8) :
    (packByte bits).toNat = ∑ j ∈ Finset.range bits.length, (bits[j]?.getD false).toNat * 2 ^ (7 - j) := by
  rw [packByte_toNat]
  refine (Finset.sum_subset (Finset.range_mono h) fun j _ hj => ?_).symm
  rw [List.getElem?_eq_none (by simpa using hj)]
  exact Nat.zero_mul _

/-- A packed byte reads eight bits. -/
theorem packByte_take (bits : BitSequence) : packByte (bits.take 8) = packByte bits := by
  refine BitVec.eq_of_toNat_eq ?_
  rw [packByte_toNat, packByte_toNat]
  refine Finset.sum_congr rfl fun j hj => ?_
  rw [List.getElem?_take_of_lt (Finset.mem_range.mp hj)]

/-! ### The fields of the words -/

/-- The codes of 0, 1 and null differ (R59). -/
theorem anaCode_inj : ∀ o o' : Option Bit, anaCode o = anaCode o' → o = o' := by decide

theorem anaWord_toNat (o : Option Bit) (m : Byte) :
    (anaWord o m).toNat = 1 * 2 ^ 28 + (anaCode o).toNat * 2 ^ 8 + m.toNat := by
  rw [anaWord]
  simp only [toNat_append_eq_add, BitVec.ofNat_eq_ofNat, BitVec.toNat_ofNat]
  omega

theorem bitWord_toNat (b : Bit) : (bitWord b).toNat = 3 * 2 ^ 28 + b.toNat := by
  cases b <;> rfl

/-- The header of a payload cut to the field of its length. -/
theorem dataHeader_toNat (L : Nat) : (dataHeader L).toNat = 4 * 2 ^ 28 + L % 2 ^ 28 := by
  rw [dataHeader, toNat_append_eq_add, BitVec.toNat_ofNat]
  rfl

/-- The number of bits of a DATAW word cut to the field `nvalid`. -/
theorem dataWord_toNat (bits : BitSequence) :
    (dataWord bits).toNat = 5 * 2 ^ 28 + bits.length % 2 ^ 4 * 2 ^ 8 + (packByte bits).toNat := by
  simp only [dataWord, toNat_append_eq_add, BitVec.ofNat_eq_ofNat, BitVec.toNat_ofNat]
  omega

/-- The field `nvalid` of a DATAW word (R59). -/
theorem dataWord_nvalid (bits : BitSequence) : (dataWord bits).extractLsb 11 8 = BitVec.ofNat 4 bits.length := by
  refine BitVec.eq_of_toNat_eq ?_
  have := (packByte bits).isLt
  rw [BitVec.extractLsb_toNat, dataWord_toNat, BitVec.toNat_ofNat, Nat.shiftRight_eq_div_pow]
  omega

/-- The low byte of a DATAW word (R59). -/
theorem dataWord_byte (bits : BitSequence) : (dataWord bits).extractLsb 7 0 = packByte bits := by
  refine BitVec.eq_of_toNat_eq ?_
  have := (packByte bits).isLt
  rw [BitVec.extractLsb_toNat, dataWord_toNat, Nat.shiftRight_zero]
  omega

/-- Settles O35: the words of an event are `eventWords`'s own cases, their values those of the fields above, which hold
the length of a payload within the limits. -/
theorem eventWordFields : Obligations.EventWordFields := by
  refine ⟨fun o m => ?_, fun _ _ => rfl, rfl, fun _ => rfl, fun _ h => if_pos h, fun _ h => if_neg (Nat.not_lt.mpr h),
    bitWord_toNat, fun L hL => ?_, fun bits h => ?_⟩
  · rw [anaWord_toNat]
    rcases o with _ | _ | _ <;> rfl
  · rw [dataHeader_toNat, Nat.mod_eq_of_lt hL]
  · rw [dataWord_toNat, Nat.mod_eq_of_lt (by omega)]

/-! ### The data words of a payload -/

theorem dataWords_length (p : BitSequence) : (dataWords p).length = (p.length + 7) / 8 := by
  simp [dataWords]

theorem dataWords_getElem? (p : BitSequence) {k : Nat} (hk : k < (p.length + 7) / 8) :
    (dataWords p)[k]? = some (dataWord ((p.drop (8 * k)).take 8)) := by
  simp [dataWords, hk]

/-- Word `k` holds `min(8, L - 8k)` bits (R60). -/
theorem chunk_length (p : BitSequence) (k : Nat) :
    ((p.drop (8 * k)).take 8).length = min 8 (p.length - 8 * k) := by
  rw [List.length_take, List.length_drop]

/-- Bit `j` of chunk `k` is bit `8k + j` of the payload (R60). -/
theorem chunk_getElem? (p : BitSequence) (k : Nat) {j : Nat} (hj : j < 8) :
    ((p.drop (8 * k)).take 8)[j]? = p[8 * k + j]? := by
  rw [List.getElem?_take_of_lt hj, List.getElem?_drop]

/-- Settles O53: word `k` is the data word of chunk `k`, whose value is its fields'. -/
theorem dataWordsCarryThePayload : Obligations.DataWordsCarryThePayload := by
  refine fun p => ⟨dataWords_length p, fun k hk => ?_⟩
  have hlen := chunk_length p k
  have hsum : (packByte ((p.drop (8 * k)).take 8)).toNat =
      ∑ j ∈ Finset.range (min 8 (p.length - 8 * k)), (p[8 * k + j]?.getD false).toNat * 2 ^ (7 - j) := by
    rw [packByte_toNat_of_length_le (List.length_take_le ..), hlen]
    refine Finset.sum_congr rfl fun j hj => ?_
    rw [chunk_getElem? p k (by have := Finset.mem_range.mp hj; omega)]
  rw [dataWords_getElem? p hk, Option.map_some, dataWord_toNat, hlen, hsum, Nat.mod_eq_of_lt (by omega)]

/-- A chunk is full exactly when the byte view has its byte. -/
theorem nvalid_chunk_eq_eight (p : BitSequence) (k : Nat) :
    (dataWord ((p.drop (8 * k)).take 8)).extractLsb 11 8 = (8 : BitVec 4) ↔ k < p.length / 8 := by
  rw [dataWord_nvalid, chunk_length, ← BitVec.toNat_inj, BitVec.toNat_ofNat, Nat.mod_eq_of_lt (by omega)]
  change min 8 (p.length - 8 * k) = 8 ↔ _
  omega

/-- The numbers below `n` that are below `m` too. -/
theorem filter_range_lt (n m : Nat) : ((List.range n).filter fun k => decide (k < m)) = List.range (min n m) := by
  rw [← List.Ico.zero_bot, ← List.Ico.zero_bot, List.Ico.filter_lt]

/-- Settles O37: the full chunks are those below `L div 8`, and the low byte of each is its byte of the byte view. -/
theorem fullDataWordsAreTheByteView : Obligations.FullDataWordsAreTheByteView := by
  intro p
  have full : ∀ k ∈ List.range ((p.length + 7) / 8),
      ((fun w : Word => w.extractLsb 11 8 == (8 : BitVec 4)) ∘ fun k => dataWord ((p.drop (8 * k)).take 8)) k =
        decide (k < p.length / 8) := fun k _ => by
    rw [Bool.eq_iff_iff, decide_eq_true_iff, ← nvalid_chunk_eq_eight p k]
    exact beq_iff_eq
  rw [dataWords, List.filter_map, List.filter_congr full, filter_range_lt, Nat.min_eq_right (by omega), List.map_map,
    byteView]
  refine List.map_congr_left fun k _ => ?_
  exact (dataWord_byte _).trans (packByte_take _)

/-- Bit `i` of a payload stands in data word `i div 8` (R60). -/
theorem dataWords_bit (p : BitSequence) {i : Nat} (hi : i < p.length) :
    (((dataWords p)[i / 8]?.getD 0).extractLsb 7 0).getLsbD (7 - i % 8) = p[i]?.getD false := by
  rw [dataWords_getElem? p (by omega), Option.getD_some, dataWord_byte, packByte_bit _ (Nat.mod_lt _ (by decide)),
    chunk_getElem? p _ (Nat.mod_lt _ (by decide)), Nat.div_add_mod]

/-- The data words give a payload of known length back. -/
theorem dataWords_inj {p q : BitSequence} (hlen : p.length = q.length) (h : dataWords p = dataWords q) : p = q := by
  refine List.ext_getElem hlen fun i hp hq => ?_
  have hbit := dataWords_bit p hp
  rw [h, dataWords_bit q hq] at hbit
  simpa [hp, hq] using hbit.symm

/-! ### Reading the events back -/

/-- The first word of an event. -/
def eventHead : Event → Word
  | .ana bit strength => anaWord bit strength
  | .sync => 0x20000000
  | .bit b => bitWord b
  | .data p => dataHeader p.length

/-- The words of an event after its first. -/
def eventBody : Event → List Word
  | .ana _ _ => []
  | .sync => []
  | .bit _ => []
  | .data p => dataWords p

/-- The number in `e[31:28]` of an event's first word (R59). -/
def eventTag : Event → Nat
  | .ana _ _ => 1
  | .sync => 2
  | .bit _ => 3
  | .data _ => 4

/-- An event with a port encoding is its first word and the rest; a payload then fits its header. -/
theorem eventWords_eq_some {e : Event} {u : List Word} (h : eventWords e = some u) :
    u = eventHead e :: eventBody e ∧ ∀ p, e = .data p → p.length < 2 ^ 28 := by
  cases e with
  | ana o m => exact ⟨(Option.some.inj h).symm, nofun⟩
  | sync => exact ⟨(Option.some.inj h).symm, nofun⟩
  | bit b => exact ⟨(Option.some.inj h).symm, nofun⟩
  | data p =>
    obtain ⟨hp, hu⟩ := Option.ite_none_right_eq_some.mp h
    exact ⟨(Option.some.inj hu).symm, fun q hq => Event.data.inj hq ▸ hp⟩

theorem eventHead_tag (e : Event) : (eventHead e).toNat / 2 ^ 28 = eventTag e := by
  cases e with
  | ana o m =>
    have := (anaCode o).isLt
    rw [eventHead, anaWord_toNat, eventTag]
    omega
  | sync => rfl
  | bit b => cases b <;> rfl
  | data p =>
    rw [eventHead, dataHeader_toNat, eventTag]
    omega

theorem anaWord_inj {o o' : Option Bit} {m m' : Byte} (h : anaWord o m = anaWord o' m') : o = o' ∧ m = m' := by
  have hnat := congrArg BitVec.toNat h
  rw [anaWord_toNat, anaWord_toNat] at hnat
  exact ⟨anaCode_inj o o' (BitVec.eq_of_toNat_eq (by omega)), BitVec.eq_of_toNat_eq (by omega)⟩

theorem bitWord_inj : ∀ b b' : Bit, bitWord b = bitWord b' → b = b' := by decide

theorem dataHeader_inj {L L' : Nat} (hL : L < 2 ^ 28) (hL' : L' < 2 ^ 28) (h : dataHeader L = dataHeader L') :
    L = L' := by
  have hnat := congrArg BitVec.toNat h
  rw [dataHeader_toNat, dataHeader_toNat] at hnat
  omega

/-- The first word gives an event other than DATA, and the length of the payload of a DATA event. -/
theorem eq_or_data_of_eventHead_eq {e f : Event} (he : ∀ p, e = .data p → p.length < 2 ^ 28)
    (hf : ∀ q, f = .data q → q.length < 2 ^ 28) (h : eventHead e = eventHead f) :
    e = f ∨ ∃ p q, e = .data p ∧ f = .data q ∧ p.length = q.length := by
  have htag : eventTag e = eventTag f := by rw [← eventHead_tag e, h, eventHead_tag f]
  cases e with
  | ana o m =>
    cases f with
    | ana o' m' =>
      obtain ⟨rfl, rfl⟩ := anaWord_inj h
      exact .inl rfl
    | sync | bit _ | data _ => cases htag
  | sync =>
    cases f with
    | sync => exact .inl rfl
    | ana _ _ | bit _ | data _ => cases htag
  | bit b =>
    cases f with
    | bit b' => exact .inl (congrArg Event.bit (bitWord_inj b b' h))
    | ana _ _ | sync | data _ => cases htag
  | data p =>
    cases f with
    | data q => exact .inr ⟨p, q, rfl, rfl, dataHeader_inj (he p rfl) (hf q rfl) h⟩
    | ana _ _ | sync | bit _ => cases htag

/-- The words of an event tell where they end: what follows them is the same for the same words. -/
theorem eventWords_append_cancel {e f : Event} {u v x y : List Word} (hu : eventWords e = some u)
    (hv : eventWords f = some v) (h : u ++ x = v ++ y) : e = f ∧ x = y := by
  obtain ⟨rfl, he⟩ := eventWords_eq_some hu
  obtain ⟨rfl, hf⟩ := eventWords_eq_some hv
  obtain ⟨hhead, hbody⟩ : eventHead e = eventHead f ∧ eventBody e ++ x = eventBody f ++ y := List.cons.inj h
  rcases eq_or_data_of_eventHead_eq he hf hhead with rfl | ⟨p, q, rfl, rfl, hlen⟩
  · exact ⟨rfl, List.append_cancel_left hbody⟩
  · have hwords : (dataWords p).length = (dataWords q).length := by rw [dataWords_length, dataWords_length, hlen]
    obtain ⟨hpq, hxy⟩ := List.append_inj hbody hwords
    exact ⟨congrArg Event.data (dataWords_inj hlen hpq), hxy⟩

/-- The words of a list are those of its first event and those of the rest. -/
theorem portWords_cons {e : Event} {es : List Event} {ws : List Word} (h : portWords (e :: es) = some ws) :
    ∃ u v, eventWords e = some u ∧ portWords es = some v ∧ ws = u ++ v := by
  rw [portWords] at h
  split at h
  next u v hu hv => exact ⟨u, v, hu, hv, (Option.some.inj h).symm⟩
  next => cases h

/-- Only the empty list has no words. -/
theorem portWords_cons_ne_nil (e : Event) (es : List Event) : portWords (e :: es) ≠ some [] := by
  intro h
  obtain ⟨u, v, hu, -, huv⟩ := portWords_cons h
  obtain ⟨rfl, -⟩ := eventWords_eq_some hu
  cases huv

/-- Settles O36, by induction on one list: the first events are the same and leave the same words. -/
theorem eventPortIsInjective : Obligations.EventPortIsInjective := by
  intro es
  induction es with
  | nil =>
    intro fs ws hes hfs
    cases fs with
    | nil => rfl
    | cons f fs => exact absurd (hfs.trans hes.symm) (portWords_cons_ne_nil f fs)
  | cons e es ih =>
    intro fs ws hes hfs
    cases fs with
    | nil => exact absurd (hes.trans hfs.symm) (portWords_cons_ne_nil e es)
    | cons f fs =>
      obtain ⟨u, x, hu, hx, rfl⟩ := portWords_cons hes
      obtain ⟨v, y, hv, hy, huv⟩ := portWords_cons hfs
      obtain ⟨rfl, rfl⟩ := eventWords_append_cancel hu hv huv
      rw [ih fs x hx hy]

end Sys2Proof.Machine
end

section
/-! The analyzer (spec/40_analyzer.md): the bin mapping, the bounds of the carrier windows, what an analysis says, and
the TICK it belongs to. -/

namespace Sys2Proof.Machine

/-! ### The bin mapping (R71, R72, R75) -/

/-- The integer form of R75 is round half up of the exact rational: both are `(2 × num + den) / (2 × den)` rounded
down. -/
theorem rhu_eq_floor (num : Nat) {den : Nat} (h : 1 ≤ den) : (rhu num den : ℤ) = ⌊(num : ℚ) / den + 1 / 2⌋ := by
  have hden : (den : ℚ) ≠ 0 := Nat.cast_ne_zero.mpr (by omega)
  have hq : (num : ℚ) / den + 1 / 2 = ((2 * num + den : Nat) : ℚ) / (2 * den : Nat) := by
    push_cast
    field_simp
  rw [hq, Rat.floor_natCast_div_natCast]
  rfl

/-- Settles O22: centres and radius are all `rhu` of a frequency times `N` over `S`. -/
theorem binMappingRoundsHalfUp : Obligations.BinMappingRoundsHalfUp := by
  intro cfg N S hS
  have bin (f : Nat) : (rhu (f * N) S : ℤ) = ⌊(f : ℚ) * N / S + 1 / 2⌋ := by
    rw [rhu_eq_floor _ hS, Nat.cast_mul]
  exact ⟨bin cfg.f0, bin cfg.f1, bin cfg.tol, rfl⟩

/-- Round half up is monotone in the numerator (R74's remark on TOL). -/
theorem rhu_mono {num num' : Nat} (h : num ≤ num') (den : Nat) : rhu num den ≤ rhu num' den :=
  Nat.div_le_div_right (by omega)

/-- The radius is not above the bin of a frequency that is not below the tolerance. -/
theorem radius_le_binOf {cfg : Config} {f : Nat} (h : cfg.tol ≤ f) (N S : Nat) : radius cfg N S ≤ binOf f N S :=
  rhu_mono (Nat.mul_le_mul_right N h) S

/-! ### The bounds of the windows (R74) -/

/-- A window whose radius is not above its centre has no address below bin 0. -/
theorem nonneg_of_inWindow {W : Window} (h : W.radius ≤ W.centre) {a : ℤ} (ha : InWindow W a) : 0 ≤ a := by
  obtain ⟨hlo, -⟩ := ha
  omega

/-- Settles O25: by `radius_le_binOf` neither radius is above its centre. -/
theorem windowsNeverReachBelowZero : Obligations.WindowsNeverReachBelowZero := by
  intro cfg N S h0 h1 _ a ha
  rcases ha with ha | ha
  · exact nonneg_of_inWindow (W := window0 cfg S N) (radius_le_binOf h0 N S) ha
  · exact nonneg_of_inWindow (W := window1 cfg S N) (radius_le_binOf h1 N S) ha

/-- The model's test of one window is R74's two bounds over the integers. -/
theorem windowInside_iff_bounds (nbins : Nat) (W : Window) :
    windowInside nbins W ↔
      0 ≤ (W.centre : ℤ) - W.radius ∧ (W.centre : ℤ) + W.radius ≤ (nbins : ℤ) - 1 := by
  unfold windowInside
  omega

/-- Settles O15: legality is `S ≥ 1` and the two bounds of each window, and a TICK that fails it while listening
raises BADOPD, whose mask is bit 1. -/
theorem illegalOperandsRaiseOnlyBadopd : Obligations.IllegalOperandsRaiseOnlyBadopd := by
  constructor
  · intro cfg S N
    rw [← legalOperands_iff, legalOperands, windowInside_iff_bounds, windowInside_iff_bounds]
    constructor
    · rintro ⟨hS, ⟨lo0, hi0⟩, lo1, hi1⟩
      exact ⟨hS, lo0, lo1, hi0, hi1⟩
    · rintro ⟨hS, lo0, lo1, hi0, hi1⟩
      exact ⟨hS, ⟨lo0, hi0⟩, lo1, hi1⟩
  · intro s srate lgfft hd hw
    exact execTick_illegal hd (mt (legalOperands_iff ..).mp hw)

/-! ### What an analysis says (R77, R78) -/

/-- The larger of two magnitudes is the second one when that is above the first. -/
theorem byteMax_of_lt {a b : Byte} (h : a < b) : byteMax a b = b := if_pos h

/-- The larger of two magnitudes is the first one unless the second is above it. -/
theorem byteMax_of_not_lt {a b : Byte} (h : ¬ a < b) : byteMax a b = a := if_neg h

/-- An analysis has the bit `b` exactly when its strength is above `MINDET` and `b` says whether `mag1` is above
`mag0`. -/
theorem analysis_bit_eq_some_iff {cfg : Config} {X : Memory} {S N : Nat} {r : Analysis}
    (h : analyze cfg X S N = .ok r) (b : Bit) :
    r.bit = some b ↔ cfg.minDet < r.strength ∧ decide (r.mag0 < r.mag1) = b := by
  by_cases hs : cfg.minDet < r.strength
  · simp [analysis_bit h hs, hs]
  · simp [analysis_null h hs, hs]

/-- Settles O23: the bit says which magnitude is the larger one, and the strength is that magnitude. -/
theorem analysisProperties : Obligations.AnalysisProperties := by
  intro cfg X S N r h
  obtain ⟨hstr, -⟩ := analysis_fields h
  refine ⟨?_, ?_, ?_⟩
  · by_cases hs : cfg.minDet < r.strength
    · simp [analysis_bit h hs, hs]
    · simp [analysis_null h hs, hs]
  · intro hb
    obtain ⟨-, hlt⟩ := (analysis_bit_eq_some_iff h true).mp hb
    rw [decide_eq_true_eq] at hlt
    rw [hstr, byteMax_of_lt hlt]
    exact ⟨rfl, hlt⟩
  · intro hb
    obtain ⟨-, hge⟩ := (analysis_bit_eq_some_iff h false).mp hb
    rw [decide_eq_false_iff_not] at hge
    rw [hstr, byteMax_of_not_lt hge]
    exact ⟨rfl, BitVec.not_lt.mp hge⟩

/-- Settles O24: both maxima are taken over the same addresses, and equal magnitudes do not give bit 1. -/
theorem coincidingWindowsNeverGiveOne : Obligations.CoincidingWindowsNeverGiveOne := by
  intro cfg X S N r hw h
  have hmag : r.mag1 = r.mag0 := by
    obtain ⟨m0, m1, h0, h1, rfl⟩ := analyze_cases h
    rw [hw, h1] at h0
    exact Except.ok.inj h0
  refine ⟨hmag, fun hb => ?_⟩
  obtain ⟨-, hlt⟩ := (analysis_bit_eq_some_iff h true).mp hb
  rw [decide_eq_true_eq, hmag] at hlt
  exact BitVec.lt_irrefl _ hlt

/-- Settles O40: `peakFreq` maps the tone of the bit over the analyzer's answer. -/
theorem peakFrequencyOfABit : Obligations.PeakFrequencyOfABit :=
  fun _ => ⟨rfl, rfl, rfl⟩

/-! ### The processed TICK (R76, R81) -/

/-- A TICK with legal operands while listening is the processed tick of its analysis. -/
theorem exec_tick_processed {srate lgfft : Nat} {s : State} {r : Analysis} (hd : s.ds ≠ .idle)
    (hw : WindowsInSpectrum s.cfg srate (2 ^ lgfft))
    (hr : analyze s.cfg s.spectrum srate (2 ^ lgfft) = .ok r) :
    exec (.tick srate lgfft) s = .next (processTick r s) :=
  execTick_processed hd ((legalOperands_iff ..).mpr hw) hr

/-- Legal operands give an analysis whose magnitudes are the maxima of the two windows (R76). -/
theorem analyze_windowMaxima {cfg : Config} (X : Memory) {S N : Nat} (h : legalOperands cfg S N) :
    ∃ r, analyze cfg X S N = .ok r ∧ IsWindowMaximum X (window0 cfg S N) r.mag0 ∧
      IsWindowMaximum X (window1 cfg S N) r.mag1 := by
  obtain ⟨-, hin0, hin1⟩ := h
  obtain ⟨m0, h0, hmax0⟩ := maxRead_window X hin0
  obtain ⟨m1, h1, hmax1⟩ := maxRead_window X hin1
  exact ⟨_, analyze_of_max h0 h1, hmax0, hmax1⟩

/-- Settles O16: the magnitudes are the window maxima by `analyze_windowMaxima`, strength and bit follow from them,
and the command is the processed tick of that analysis. -/
theorem legalTickAnalyzesItsWindows : Obligations.LegalTickAnalyzesItsWindows := by
  intro s srate lgfft hd hw
  obtain ⟨r, hr, hmax0, hmax1⟩ := analyze_windowMaxima s.spectrum ((legalOperands_iff ..).mpr hw)
  have hstr : r.strength.toNat = max r.mag0.toNat r.mag1.toNat := by
    obtain ⟨hstr, -⟩ := analysis_fields hr
    rw [hstr, byteMax_toNat]
  have hnull (hs : r.strength ≤ s.cfg.minDet) : r.bit = none := analysis_null hr (BitVec.not_lt.mpr hs)
  have hone (hs : s.cfg.minDet < r.strength) (hlt : r.mag0 < r.mag1) : r.bit = some true :=
    (analysis_bit_eq_some_iff hr true).mpr ⟨hs, decide_eq_true hlt⟩
  have hzero (hs : s.cfg.minDet < r.strength) (hge : r.mag1 ≤ r.mag0) : r.bit = some false :=
    (analysis_bit_eq_some_iff hr false).mpr ⟨hs, decide_eq_false (BitVec.not_lt.mpr hge)⟩
  exact ⟨r, hr, hmax0, hmax1, hstr, hnull, hone, hzero, exec_tick_processed hd hw hr⟩

/-- An admitted bit in SYNCING goes to the SyncDetector (43_frame.md R111). -/
theorem admitBit_syncing (b : Bit) {s : State} (h : s.ds = .syncing) : admitBit b s = syncDetector b s := by
  rw [admitBit, h]

/-- An admitted bit in RECEIVING goes to the FrameDecoder (43_frame.md R111). -/
theorem admitBit_receiving (b : Bit) {s : State} (h : s.ds = .receiving) : admitBit b s = frameDecoder b s := by
  rw [admitBit, h]

/-- Settles O17: the statement's `u` is the observed state; a rejected tick ends there, an admitted one hands the bit
of its analysis to the consumer that `ds` chooses. -/
theorem processedTickUpdatesPresenceThenAdmits : Obligations.ProcessedTickUpdatesPresenceThenAdmits := by
  intro s u srate lgfft r c hd hw hr hc hu
  rw [presenceAfter_eq] at hc
  have hobs : u = observe r s := by rw [hu, hc]; rfl
  rw [exec_tick_processed hd hw hr, hobs, hc]
  constructor
  · intro hrej
    rw [processTick_rejected hrej]
  · intro hs hcs
    have hbit := analysis_bit hr hs
    rw [processTick_admitted hbit hs hcs]
    exact ⟨_, hbit, fun hds => by rw [admitBit_syncing _ ((observe_ds r s).trans hds)],
      fun hds => by rw [admitBit_receiving _ ((observe_ds r s).trans hds)]⟩

end Sys2Proof.Machine
end

section
/-! The hysteresis gate (spec/41_hysteresis.md): the three branches of the presence update, and the processed tick by
strength. -/

namespace Sys2Proof.Machine

/-! ### The presence update (R90) -/

theorem hysteresis_below {cfg : Config} {m : Byte} (hlow : m < cfg.low) (cs : Bit) : hysteresis cfg m cs = false :=
  if_pos hlow

theorem hysteresis_between {cfg : Config} {m : Byte} (hlow : cfg.low ≤ m) (hhigh : m ≤ cfg.high) (cs : Bit) :
    hysteresis cfg m cs = cs := by
  rw [hysteresis, if_neg (BitVec.not_lt.mpr hlow), if_neg (BitVec.not_lt.mpr hhigh)]

theorem hysteresis_above {cfg : Config} {m : Byte} (hlow : cfg.low ≤ m) (hhigh : cfg.high < m) (cs : Bit) :
    hysteresis cfg m cs = true := by
  rw [hysteresis, if_neg (BitVec.not_lt.mpr hlow), if_pos hhigh]

/-! ### The processed tick by strength (R91, R92) -/

/-- A tick not above `MINDET` updates the presence state and reports null; nothing is admitted. -/
theorem processTick_of_le_minDet {s : State} {r : Analysis} {S N : Nat} (hr : analyze s.cfg s.spectrum S N = .ok r)
    (hs : r.strength ≤ s.cfg.minDet) :
    processTick r s =
      { s with cs := hysteresis s.cfg r.strength s.cs, events := s.events ++ [.ana none r.strength] } := by
  have hmin : ¬ s.cfg.minDet < r.strength := BitVec.not_lt.mpr hs
  rw [processTick_rejected (fun hadm => hmin hadm.1), ← analysis_null hr hmin]
  rfl

/-- A tick that leaves the presence state at 0 reports its bit and admits nothing. -/
theorem processTick_of_absent {s : State} {r : Analysis} (hcs : hysteresis s.cfg r.strength s.cs = false) :
    processTick r s = { s with cs := false, events := s.events ++ [.ana r.bit r.strength] } := by
  have hrej : ¬ (s.cfg.minDet < r.strength ∧ hysteresis s.cfg r.strength s.cs = true) := by simp [hcs]
  rw [processTick_rejected hrej, ← hcs]
  rfl

/-- A tick above `MINDET` that leaves the presence state at 1 admits the bit of its magnitudes. -/
theorem processTick_of_present {s : State} {r : Analysis} {S N : Nat} (hr : analyze s.cfg s.spectrum S N = .ok r)
    (hs : s.cfg.minDet < r.strength) (hcs : hysteresis s.cfg r.strength s.cs = true) :
    processTick r s = admitBit (decide (r.mag0 < r.mag1))
      { s with cs := true, events := s.events ++ [.ana r.bit r.strength] } := by
  rw [processTick_admitted (analysis_bit hr hs) hs hcs, ← hcs]
  rfl

/-- Settles O27: 80, 90 and 140 place each range in a branch of the presence update and on a side of `MINDET`; the
bit is admitted exactly above `MINDET` with the updated presence state 1. -/
theorem strengthRangesOfTheGate : Obligations.StrengthRangesOfTheGate := by
  intro s t srate lgfft r hd hlow hmin hhigh hw hr ht
  obtain rfl : processTick r s = t := Host.Outcome.next.inj ((exec_tick_processed hd hw hr).symm.trans ht)
  obtain ⟨hcs, -⟩ := processTick_frame r s
  refine ⟨fun hs => ?below, fun hs hs' => ?null, fun hs hs' => ?between, fun hs => ?above, fun hs htcs => ?admitted⟩
  case below =>
    have hlt : r.strength < s.cfg.low := by rw [hlow]; bv_omega
    have hle : r.strength ≤ s.cfg.minDet := by rw [hmin]; bv_omega
    rw [processTick_of_le_minDet hr hle, hysteresis_below hlt]
  case null =>
    have hle : r.strength ≤ s.cfg.high := by rw [hhigh]; bv_omega
    rw [processTick_of_le_minDet hr (hmin ▸ hs'), hysteresis_between (hlow ▸ hs) hle]
  case between =>
    have hge : s.cfg.low ≤ r.strength := by rw [hlow]; bv_omega
    have hkeep := hysteresis_between hge (hhigh ▸ hs') s.cs
    refine ⟨hcs.trans hkeep, fun habs => ?_⟩
    rw [processTick_of_absent (hkeep.trans habs), ← habs]
  case above =>
    have hge : s.cfg.low ≤ r.strength := by rw [hlow]; bv_omega
    have hgt : s.cfg.high < r.strength := by rw [hhigh]; bv_omega
    exact hcs.trans (hysteresis_above hge hgt s.cs)
  case admitted =>
    have hgt : s.cfg.minDet < r.strength := by rw [hmin]; bv_omega
    exact processTick_of_present hr hgt (hcs.symm.trans htcs)

end Sys2Proof.Machine
end

section
/-! The SyncDetector (spec/42_sync.md): one admitted bit in SYNCING, and the feeding of admitted bits up to the lock. -/

namespace Sys2Proof.Machine

/-! ### One admitted bit (R101 to R103) -/

/-- The new window as R101 words it: the oldest bit goes when there is one bit more than `WINLEN`. -/
theorem pushWindow_eq (cfg : Config) (win : BitSequence) (b : Bit) :
    pushWindow cfg win b = if cfg.winLen < win.length + 1 then (win ++ [b]).tail else win ++ [b] := by
  simp [pushWindow]

/-- An admitted bit in SYNCING that gives no match writes the window only (R103). -/
theorem admitBit_roll {b : Bit} {s : State} (hds : s.ds = .syncing)
    (h : pushWindow s.cfg s.win b ≠ s.cfg.preamble) :
    admitBit b s = { s with win := pushWindow s.cfg s.win b } :=
  (admitBit_syncing b hds).trans (if_neg h)

/-- An admitted bit in SYNCING that gives a match locks (R102). -/
theorem admitBit_lock {b : Bit} {s : State} (hds : s.ds = .syncing)
    (h : pushWindow s.cfg s.win b = s.cfg.preamble) : admitBit b s = lock s :=
  (admitBit_syncing b hds).trans (if_pos h)

/-- A TICK while listening whose bit is admitted: ANA, the presence update, then the bit of the magnitudes. -/
theorem exec_tick_admitted {s : State} {srate lgfft : Nat} {r : Analysis} (hd : s.ds ≠ .idle)
    (hw : WindowsInSpectrum s.cfg srate (2 ^ lgfft)) (hr : analyze s.cfg s.spectrum srate (2 ^ lgfft) = .ok r)
    (hmin : s.cfg.minDet < r.strength) (hcs : presenceAfter s.cfg r.strength s.cs = true) :
    exec (.tick srate lgfft) s = .next (admitBit (decide (r.mag0 < r.mag1))
      { s with cs := true, events := s.events ++ [.ana r.bit r.strength] }) := by
  rw [exec_tick_processed hd hw hr, processTick_of_present hr hmin ((presenceAfter_eq ..).symm.trans hcs)]

/-- Settles O18: the tick admits its bit, and the bit gives no match and rolls the window. -/
theorem admittedBitRollsTheWindow : Obligations.AdmittedBitRollsTheWindow := by
  intro s srate lgfft r w hds hw hr hmin hcs hwin hne
  rw [← pushWindow_eq] at hwin
  subst hwin
  rw [exec_tick_admitted (by simp [hds]) hw hr hmin hcs]
  exact congrArg Host.Outcome.next (admitBit_roll hds hne)

/-- Settles O19: the tick admits its bit, and the bit gives the match and locks; SYNC follows the ANA already emitted. -/
theorem preambleLocks : Obligations.PreambleLocks := by
  intro s srate lgfft r hds hw hr hmin hcs hmatch
  rw [← pushWindow_eq] at hmatch
  rw [exec_tick_admitted (by simp [hds]) hw hr hmin hcs,
    admitBit_lock (s := { s with cs := true, events := _ }) hds hmatch]
  simp [lock, enterDs, emit]

/-! ### The admitted bits up to the lock (R101, R104) -/

/-- Without a match anywhere in a sequence there is none in an initial part of it. -/
theorem noMatch_of_append {cfg : Config} {xs ys : BitSequence}
    (h : ∀ n, n ≤ (xs ++ ys).length → lastn ((xs ++ ys).take n) cfg.winLen ≠ cfg.preamble) :
    ∀ n, n ≤ xs.length → lastn (xs.take n) cfg.winLen ≠ cfg.preamble := by
  intro n hn
  rw [← List.take_append_of_le_length (l₂ := ys) hn]
  exact h n (by rw [List.length_append]; omega)

/-- Settles O29: by induction on the bits, the newest last. The window before a bit holds the last bits admitted so
far, so the window with it holds the last bits again (`pushWindow_lastn`), and that is not the preamble. -/
theorem windowHoldsTheLastAdmittedBits : Obligations.WindowHoldsTheLastAdmittedBits := by
  intro s bits _ hds hwin hno
  induction bits using List.reverseRecOn with
  | nil =>
    have hempty : lastn [] s.cfg.winLen = s.win := by rw [lastn, List.drop_nil, hwin]
    rw [hempty, feed_nil]
  | append_singleton xs b ih =>
    have hne : lastn (xs ++ [b]) s.cfg.winLen ≠ s.cfg.preamble := by
      simpa only [List.take_length] using hno (xs ++ [b]).length le_rfl
    rw [← pushWindow_lastn] at hne ⊢
    rw [feed_append, ih (noMatch_of_append hno), feed_cons, feed_nil]
    exact admitBit_roll hds hne

/-- Settles O30: before the last bit the window holds the last bits fed (O29), and with it the window is the
preamble. -/
theorem lockAtTheFirstMatch : Obligations.LockAtTheFirstMatch := by
  intro s bits b hwf hds hwin hno hmatch
  rw [← pushWindow_lastn] at hmatch
  rw [feed_append, windowHoldsTheLastAdmittedBits s bits hwf hds hwin hno, feed_cons, feed_nil]
  exact admitBit_lock hds hmatch

end Sys2Proof.Machine
end

section
/-! The FrameDecoder (spec/43_frame.md): one admitted bit in RECEIVING, the admitted bits up to the first terminator,
and the byte view of a payload. -/

namespace Sys2Proof.Machine

/-! ### One admitted bit (R112 to R115) -/

/-- The capacity test of the append is `plen < PMAX` (R112). -/
theorem fits_succ_iff (cfg : Config) (n : Nat) : cfg.fits (n + 1) = true ↔ ∀ m, cfg.pmax = some m → n < m := by
  cases hp : cfg.pmax with
  | none => simp [Config.fits, hp]
  | some m => simp [Config.fits, hp]

/-- An admitted bit in RECEIVING that fits and completes no terminator is appended (R112, R114). -/
theorem admitBit_append {b : Bit} {s : State} (hds : s.ds = .receiving)
    (hfits : s.cfg.fits (s.pbuf.length + 1) = true) (h : ¬ terminated s.cfg (s.pbuf ++ [b])) :
    admitBit b s = { s with pbuf := s.pbuf ++ [b], events := s.events ++ [.bit b] } := by
  rw [admitBit_receiving b hds, frameDecoder, if_pos hfits, if_neg h]
  rfl

/-- An admitted bit in RECEIVING that fits and completes a terminator hands the payload before it over, DATA after
BIT (R115). -/
theorem admitBit_handOver {b : Bit} {s : State} (hds : s.ds = .receiving)
    (hfits : s.cfg.fits (s.pbuf.length + 1) = true) (h : terminated s.cfg (s.pbuf ++ [b])) :
    admitBit b s = { s with
      ds := .syncing, win := [], pbuf := []
      events := s.events ++ [.bit b, .data (payloadOf s.cfg (s.pbuf ++ [b]))] } := by
  rw [admitBit_receiving b hds, frameDecoder, if_pos hfits, if_pos h]
  simp [handOver, appendBit, enterDs, emit]

/-- An admitted bit in RECEIVING without room for it overflows (R113). -/
theorem admitBit_overflow {b : Bit} {s : State} (hds : s.ds = .receiving)
    (hfull : ¬ s.cfg.fits (s.pbuf.length + 1) = true) : admitBit b s = overflow s := by
  rw [admitBit_receiving b hds, frameDecoder, if_neg hfull]

/-- Settles O20: the tick admits its bit, there is room for it, and the terminator test decides between append and
hand-over; BIT and DATA follow the ANA already emitted. -/
theorem admittedBitIsAppendedAndTested : Obligations.AdmittedBitIsAppendedAndTested := by
  intro s srate lgfft r b hds hw hr hmin hcs hb hroom
  subst hb
  have hfits := (fits_succ_iff s.cfg s.pbuf.length).mpr hroom
  rw [exec_tick_admitted (by simp [hds]) hw hr hmin hcs]
  refine ⟨fun hnt => ?_, fun hlong hones => ?_⟩
  · rw [admitBit_append (s := { s with cs := true, events := _ }) hds hfits (by simpa using hnt)]
    simp
  · rw [admitBit_handOver (s := { s with cs := true, events := _ }) hds hfits ⟨by simpa using hlong, hones⟩]
    simp [payloadOf]

/-- Settles O21: the tick admits its bit, for which a buffer of `PMAX` bits has no room. -/
theorem fullBufferOverflows : Obligations.FullBufferOverflows := by
  intro s srate lgfft r hds hw hr hmin hcs hfull
  have hnoroom : ¬ s.cfg.fits (s.pbuf.length + 1) = true := fun hfits =>
    Nat.lt_irrefl _ ((fits_succ_iff ..).mp hfits _ hfull)
  rw [exec_tick_admitted (by simp [hds]) hw hr hmin hcs]
  exact congrArg Host.Outcome.next (admitBit_overflow (s := { s with cs := true, events := _ }) hds hnoroom)

/-! ### The admitted bits up to the first terminator (R117) -/

/-- As long as no initial part of the bits fed is terminated, they gather in the buffer, one BIT each. By induction
on the bits, the newest last. -/
theorem feed_unterminated {s : State} {bits : BitSequence} (hds : s.ds = .receiving) (hpbuf : s.pbuf = [])
    (hfits : s.cfg.fits bits.length = true) (hno : ∀ q, q <+: bits → ¬ terminated s.cfg q) :
    feed bits s = { s with pbuf := bits, events := s.events ++ bits.map Event.bit } := by
  induction bits using List.reverseRecOn with
  | nil => rw [feed_nil, List.map_nil, List.append_nil, ← hpbuf]
  | append_singleton xs b ih =>
    have hroom : s.cfg.fits (xs.length + 1) = true := by simpa using hfits
    rw [feed_append, ih (fits_mono (Nat.le_succ _) hroom) fun q hq => hno q (hq.trans (List.prefix_append ..)),
      feed_cons, feed_nil,
      admitBit_append (s := { s with pbuf := xs, events := _ }) hds hroom (hno _ List.prefix_rfl)]
    simp

/-- Settles O31: the initial parts shorter than the bits are not terminated, so all bits but the last gather in the
buffer; the last one completes the terminator or joins them. -/
theorem frameIsCutAtTheFirstRunOfOnes : Obligations.FrameIsCutAtTheFirstRunOfOnes := by
  intro s bits hds hpbuf hfits hfirst
  have hno (q : BitSequence) (hq : q <+: bits) (hlt : q.length < bits.length) : ¬ terminated s.cfg q := by
    rintro ⟨hlong, hones⟩
    rw [List.prefix_iff_eq_take.mp hq] at hones
    exact hfirst q.length hlt hlong hones
  constructor
  · intro hlong hones
    obtain rfl | ⟨xs, b, rfl⟩ := List.eq_nil_or_concat' bits
    · exact absurd hlong (Nat.not_lt_zero _)
    · have hroom : s.cfg.fits (xs.length + 1) = true := by simpa using hfits
      have hgather := feed_unterminated hds hpbuf (fits_mono (Nat.le_succ _) hroom) fun q hq =>
        hno q (hq.trans (List.prefix_append ..)) (by simpa [Nat.lt_succ_iff] using hq.length_le)
      rw [feed_append, hgather, feed_cons, feed_nil,
        admitBit_handOver (s := { s with pbuf := xs, events := _ }) hds hroom ⟨hlong, hones⟩]
      simp [payloadOf]
  · intro hnt
    refine feed_unterminated hds hpbuf hfits fun q hq => ?_
    rcases hq.length_le.lt_or_eq with hlt | heq
    · exact hno q hq hlt
    · exact hq.eq_of_length heq ▸ hnt

/-! ### The byte view (R118) -/

theorem byteView_length (p : BitSequence) : (byteView p).length = p.length / 8 := by
  simp [byteView]

theorem byteView_getElem? (p : BitSequence) {k : Nat} (hk : k < p.length / 8) :
    (byteView p)[k]? = some (packByte (p.drop (8 * k))) := by
  simp [byteView, hk]

/-- Settles O38: byte `k` packs the bits from `8k` on. -/
theorem byteViewGroupsFromTheFirstBit : Obligations.ByteViewGroupsFromTheFirstBit := by
  refine fun p => ⟨byteView_length p, fun k hk => ?_⟩
  simp only [byteView_getElem? p hk, Option.map_some, packByte_toNat, List.getElem?_drop]

theorem bitsOfByte_length (b : Byte) : (bitsOfByte b).length = 8 := by
  simp [bitsOfByte]

/-- A byte is packed from its bits, most significant first (20_memory.md R34). -/
theorem packByte_bitsOfByte (b : Byte) : packByte (bitsOfByte b) = b := by
  refine BitVec.eq_of_getLsbD_eq fun i hi => ?_
  have hbit := packByte_bit (bitsOfByte b) (j := 7 - i) (by omega)
  have hback : 7 - (7 - i) = i := by omega
  have hlt : 7 - i < 8 := by omega
  simpa [bitsOfByte, hback, hlt] using hbit

/-- Eight bits in front of a payload are one byte in front of its byte view. -/
theorem byteView_append {c : BitSequence} (hc : c.length = 8) (p : BitSequence) :
    byteView (c ++ p) = packByte c :: byteView p := by
  have hlen : (c ++ p).length / 8 = p.length / 8 + 1 := by rw [List.length_append]; omega
  have hhead : packByte (c ++ p) = packByte c := by rw [← packByte_take, List.take_left' hc]
  have htail (k : Nat) : (c ++ p).drop (8 * (k + 1)) = p.drop (8 * k) := by
    rw [Nat.mul_succ, Nat.add_comm, ← List.drop_drop, List.drop_left' hc]
  rw [byteView, hlen, List.range_succ_eq_map, List.map_cons, List.map_map, Nat.mul_zero, List.drop_zero, hhead]
  simp only [byteView, Function.comp_def, htail]

/-- Settles O39: by induction on the bytes, each of them eight bits in front; the trailing bits make no byte. -/
theorem byteViewRecoversTheBytes : Obligations.ByteViewRecoversTheBytes := by
  intro bytes tail htail
  induction bytes with
  | nil => exact List.eq_nil_of_length_eq_zero ((byteView_length tail).trans (Nat.div_eq_of_lt htail))
  | cons x xs ih =>
    have hsplit : bitsOfBytes (x :: xs) ++ tail = bitsOfByte x ++ (bitsOfBytes xs ++ tail) := by
      simp [bitsOfBytes]
    rw [hsplit, byteView_append (bitsOfByte_length x), packByte_bitsOfByte, ih]

end Sys2Proof.Machine
end

section
/-! The commands (spec/44_control.md): NOP, START, STOP, the TICK in IDLE and the illegal word, the events of one
command, the transitions of `ds`, and the runs that stay in IDLE. -/

namespace Sys2Proof.Machine

/-! ### The commands one by one (R130 to R132, R134, R137) -/

/-- Settles O10: both clauses are the definitions of `encode` and `execNop`. -/
theorem nopChangesNothing : Obligations.NopChangesNothing :=
  ⟨rfl, fun _ => rfl⟩

/-- Settles O11: the test of START on `ds` decides between the two clauses. -/
theorem startEntersSyncingFromIdle : Obligations.StartEntersSyncingFromIdle :=
  ⟨rfl, fun _ => ⟨fun hd => if_pos hd, fun hd => if_neg hd⟩⟩

/-- To enter the detector state the block is in, with both sequences empty, changes nothing. -/
theorem enterDs_eq_self {d : DetectorState} {s : State} (hds : s.ds = d) (hwin : s.win = []) (hpbuf : s.pbuf = []) :
    enterDs d s = s := by
  cases s
  cases hds
  cases hwin
  cases hpbuf
  rfl

/-- Settles O12: a STOP leaves IDLE with both sequences empty, where entering IDLE again changes nothing. -/
theorem stopEntersIdle : Obligations.StopEntersIdle := by
  refine ⟨rfl, fun _ => rfl, fun s t ht => ?_⟩
  obtain rfl : enterDs .idle s = t := Host.Outcome.next.inj ht
  exact congrArg Host.Outcome.next (enterDs_eq_self (enterDs_ds ..) (enterDs_win ..) (enterDs_pbuf ..))

/-- Settles O14: the test for IDLE comes before every other one of a TICK. -/
theorem tickInIdleChangesNothing : Obligations.TickInIdleChangesNothing :=
  fun _ srate lgfft hd => execTick_idle srate lgfft hd

/-- A step with a presented command whose word is illegal. -/
theorem step_of_illegal {s : State} {p : Presentation} {rest : List Presentation} {e : IllegalWord}
    (hp : s.port = p :: rest) (hd : decode p.word = .error e) :
    step s = .next (illegalCommand (takeCommand p rest s)) := by
  simp only [step_of_port hp, runWord, hd]

/-- Settles O6: the mask of ILLCMD is bit 0, and the rest of the statement's update is the taking of the command. -/
theorem illegalWordRaisesOnlyIllcmd : Obligations.IllegalWordRaisesOnlyIllcmd :=
  fun _ _ _ _ hp hd => step_of_illegal hp hd

/-! ### The events of one command (R133, 43_frame.md R116) -/

/-- A terminated payload without its terminator is longer than `GUARD - TERMLEN` (43_frame.md R116). -/
theorem payloadOf_length_ge {cfg : Config} {pbuf : BitSequence} (h : terminated cfg pbuf) :
    cfg.guard + 1 ≤ (payloadOf cfg pbuf).length + cfg.termLen := by
  obtain ⟨hlong, -⟩ := h
  rw [payloadOf, List.length_take]
  omega

/-- An admitted bit emits nothing, SYNC, BIT, or BIT and DATA. -/
theorem admitBit_events (b : Bit) (s : State) :
    ∃ new : List Event, (admitBit b s).events = s.events ++ new ∧
      (new = [] ∨ new = [.sync] ∨ new = [.bit b] ∨
        ∃ p, new = [.bit b, .data p] ∧ s.cfg.guard + 1 ≤ p.length + s.cfg.termLen) := by
  rcases admitBit_cases b s with ⟨-, h⟩ | ⟨-, -, h⟩ | ⟨-, -, h⟩ | ⟨-, -, -, h⟩ | ⟨-, -, ht, h⟩ | ⟨-, -, h⟩ <;> rw [h]
  · exact ⟨[], (List.append_nil _).symm, .inl rfl⟩
  · exact ⟨[], (List.append_nil _).symm, .inl rfl⟩
  · exact ⟨[.sync], lock_events s, .inr (.inl rfl)⟩
  · exact ⟨[.bit b], appendBit_events b s, .inr (.inr (.inl rfl))⟩
  · exact ⟨[.bit b, .data (payloadOf s.cfg (s.pbuf ++ [b]))], by simp,
      .inr (.inr (.inr ⟨_, rfl, payloadOf_length_ge ht⟩))⟩
  · exact ⟨[], (List.append_nil _).symm, .inl rfl⟩

/-- Settles O33: only a processed tick emits, and what it emits is ANA and then the events of the admitted bit. -/
theorem eventListsOfOneCommand : Obligations.EventListsOfOneCommand := by
  intro i s t h
  rcases exec_cases h with rfl | ⟨d, rfl⟩ | rfl | ⟨-, -, r, -, -, -, -, rfl⟩
  · exact ⟨[], (List.append_nil _).symm, .inl rfl⟩
  · exact ⟨[], (List.append_nil _).symm, .inl rfl⟩
  · exact ⟨[], (List.append_nil _).symm, .inl rfl⟩
  · rcases processTick_cases r s with e | ⟨b, -, -, -, e⟩ <;> rw [e]
    · exact ⟨[.ana r.bit r.strength], observe_events r s, .inr (.inl ⟨_, _, rfl⟩)⟩
    · obtain ⟨new, hnew, hcases⟩ := admitBit_events b (observe r s)
      refine ⟨.ana r.bit r.strength :: new, by simp [hnew], ?_⟩
      rcases hcases with rfl | rfl | rfl | ⟨p, rfl, hlen⟩
      · exact .inr (.inl ⟨_, _, rfl⟩)
      · exact .inr (.inr (.inl ⟨_, _, rfl⟩))
      · exact .inr (.inr (.inr (.inl ⟨_, _, _, rfl⟩)))
      · exact .inr (.inr (.inr (.inr ⟨_, _, _, p, rfl, hlen⟩)))

/-! ### The transitions of `ds` (R135) -/

/-- The bit `b` admitted in `s` locks, terminates or overflows, and `d` is the next detector state of R135. -/
def BitMovesTo (b : Bit) (s : State) (d : DetectorState) : Prop :=
  (s.ds = .syncing ∧ pushWindow s.cfg s.win b = s.cfg.preamble ∧ d = .receiving) ∨
  (s.ds = .receiving ∧ s.cfg.fits (s.pbuf.length + 1) = true ∧ terminated s.cfg (s.pbuf ++ [b]) ∧ d = .syncing) ∨
  (s.ds = .receiving ∧ s.cfg.fits (s.pbuf.length + 1) = false ∧ d = .syncing)

/-- An admitted bit that changes `ds` does so in one of R135's ways. -/
theorem bitMovesTo_of_admitBit_ds_ne {b : Bit} {s : State} (h : (admitBit b s).ds ≠ s.ds) :
    BitMovesTo b s (admitBit b s).ds := by
  rcases admitBit_cases b s with ⟨-, e⟩ | ⟨-, -, e⟩ | ⟨hd, hm, e⟩ | ⟨-, -, -, e⟩ | ⟨hd, hf, ht, e⟩ | ⟨hd, hf, e⟩ <;>
    rw [e] at h ⊢
  · exact absurd rfl h
  · exact absurd rfl h
  · exact .inl ⟨hd, hm, lock_ds s⟩
  · exact absurd (appendBit_ds b s) h
  · exact .inr (.inl ⟨hd, hf, ht, handOver_ds _⟩)
  · exact .inr (.inr ⟨hd, hf, overflow_ds s⟩)

/-- A processed tick that changes `ds` admits a bit that does. -/
theorem processTick_ds_ne {r : Analysis} {s : State} (h : (processTick r s).ds ≠ s.ds) :
    ∃ b, r.bit = some b ∧ s.cfg.minDet < r.strength ∧ presenceAfter s.cfg r.strength s.cs = true ∧
      BitMovesTo b s (processTick r s).ds := by
  rcases processTick_cases r s with e | ⟨b, hb, hmin, hcs, e⟩ <;> rw [e] at h ⊢
  · exact absurd (observe_ds r s) h
  · exact ⟨b, hb, hmin, (presenceAfter_eq ..).trans hcs, bitMovesTo_of_admitBit_ds_ne (s := observe r s) h⟩

/-- Settles O41: a wait, ILLCMD, NOP and a TICK that is not processed keep `ds`, and so does START outside IDLE. -/
theorem detectorTransitions : Obligations.DetectorTransitions := by
  intro s t ht hne
  rcases step_cases s with ⟨-, e⟩ | ⟨p, rest, -, -, -, e⟩ | ⟨p, rest, i, hp, hdec, e⟩ <;> rw [e] at ht
  · cases ht
    exact absurd rfl hne
  · cases ht
    exact absurd rfl hne
  · refine ⟨p, rest, hp, ?_⟩
    cases i with
    | nop =>
      cases ht
      exact absurd rfl hne
    | start =>
      rcases execStart_cases (takeCommand p rest s) with ⟨hd, e⟩ | ⟨-, e⟩ <;> cases e.symm.trans ht
      · exact .inl ⟨hd, hdec, enterDs_ds ..⟩
      · exact absurd rfl hne
    | stop =>
      cases ht
      exact .inr (.inl ⟨hdec, enterDs_ds ..⟩)
    | tick srate lgfft =>
      rcases execTick_cases srate lgfft (takeCommand p rest s) with ⟨-, e⟩ | ⟨-, -, e⟩ | ⟨-, hl, r, hr, e⟩ <;>
        cases e.symm.trans ht
      · exact absurd rfl hne
      · exact absurd rfl hne
      · obtain ⟨b, hb, hmin, hcs, hmove⟩ := processTick_ds_ne (s := takeCommand p rest s) hne
        exact .inr (.inr ⟨srate, lgfft, r, b, hdec, (legalOperands_iff ..).mp hl, hr, hb, hmin, hcs, hmove⟩)

/-! ### Runs that stay in IDLE (R136, 60_exceptions.md R162) -/

/-- In IDLE with both sequences empty every command but START changes nothing (R136). -/
theorem exec_at_rest {i : Instr} {s : State} (hi : i ≠ .start) (hds : s.ds = .idle) (hwin : s.win = [])
    (hpbuf : s.pbuf = []) : exec i s = .next s := by
  cases i with
  | nop => rfl
  | start => exact absurd rfl hi
  | stop => exact congrArg Host.Outcome.next (enterDs_eq_self hds hwin hpbuf)
  | tick srate lgfft => exact execTick_idle srate lgfft hds

/-- A run from `s` that rests in IDLE has come to `t`: both sequences are empty, `s`'s events, presence state and
configuration stand, and none of the next `k` presented commands is START. -/
structure RestsInIdle (s : State) (k : Nat) (t : State) : Prop where
  events : t.events = s.events
  ds : t.ds = .idle
  cs : t.cs = s.cs
  win : t.win = []
  pbuf : t.pbuf = []
  cfg : t.cfg = s.cfg
  no_start : ∀ p ∈ t.port.take k, decode p.word ≠ .ok .start

/-- The taking of a command leaves one presented command less. -/
theorem restsInIdle_takeCommand {s u : State} {k : Nat} {p : Presentation} {rest : List Presentation}
    (h : RestsInIdle s (k + 1) u) (hp : u.port = p :: rest) : RestsInIdle s k (takeCommand p rest u) where
  events := h.events
  ds := h.ds
  cs := h.cs
  win := h.win
  pbuf := h.pbuf
  cfg := h.cfg
  no_start q hq := h.no_start q (by rw [hp, List.take_succ_cons]; exact List.mem_cons_of_mem p hq)

/-- An illegal word writes `flt` only, of which `RestsInIdle` does not speak. -/
theorem restsInIdle_illegalCommand {s u : State} {k : Nat} (h : RestsInIdle s k u) :
    RestsInIdle s k (illegalCommand u) :=
  ⟨h.events, h.ds, h.cs, h.win, h.pbuf, h.cfg, h.no_start⟩

/-- A step keeps the rest in IDLE: it waits, raises ILLCMD, or runs a command other than START. -/
theorem step_restsInIdle {s u v : State} {k : Nat} (h : RestsInIdle s (k + 1) u) (hv : step u = .next v) :
    RestsInIdle s k v := by
  rcases step_cases u with ⟨hp, e⟩ | ⟨p, rest, -, hp, -, e⟩ | ⟨p, rest, i, hp, hdec, e⟩ <;> rw [e] at hv
  · cases hv
    exact { h with no_start := by simp [hp] }
  · cases hv
    exact restsInIdle_illegalCommand (restsInIdle_takeCommand h hp)
  · have htaken := restsInIdle_takeCommand h hp
    have hi : i ≠ .start := by
      rintro rfl
      exact h.no_start p (by simp [hp]) hdec
    cases (exec_at_rest hi htaken.ds htaken.win htaken.pbuf).symm.trans hv
    exact htaken

/-- Settles O34: the start of the run rests in IDLE, and every step keeps that. -/
theorem noEventsUntilStart : Obligations.NoEventsUntilStart := by
  intro k s t hds hns hwin hpbuf hrun
  obtain ⟨hev, hds', hcs, hwin', hpbuf', hcfg, -⟩ :=
    run_keeps (RestsInIdle s) (fun _ _ _ => step_restsInIdle) k s t ⟨rfl, hds, rfl, hwin, hpbuf, rfl, hns⟩ hrun
  exact ⟨hev, hds', hcs, hwin', hpbuf', hcfg⟩

end Sys2Proof.Machine
end

section
/-! The fault bits (spec/60_exceptions.md): the cause of each one, and what a step raises. -/

namespace Sys2Proof.Machine

/-! ### The causes (R155) -/

/-- The next step of `s` meets R155's cause of the fault `f`; the overflow is R112's else case (log entry 10). -/
def FaultCause (s : State) : FaultBit → Prop
  | .illcmd => ∃ p rest e, s.port = p :: rest ∧ decode p.word = .error e
  | .badopd => ∃ p rest srate lgfft, s.port = p :: rest ∧ decode p.word = .ok (.tick srate lgfft) ∧
      s.ds ≠ .idle ∧ ¬ WindowsInSpectrum s.cfg srate (2 ^ lgfft)
  | .ovf => ∃ p rest srate lgfft r, s.port = p :: rest ∧ decode p.word = .ok (.tick srate lgfft) ∧
      s.ds = .receiving ∧ WindowsInSpectrum s.cfg srate (2 ^ lgfft) ∧
      analyze s.cfg p.spectrum srate (2 ^ lgfft) = .ok r ∧ s.cfg.minDet < r.strength ∧
      presenceAfter s.cfg r.strength s.cs = true ∧ s.cfg.fits (s.pbuf.length + 1) = false

/-- A cause raises its fault, whatever `flt` holds. -/
theorem step_flt_of_cause {s t : State} {f : FaultBit} (hc : FaultCause s f) (ht : step s = .next t) :
    t.flt = s.flt ||| f.mask := by
  cases f with
  | illcmd =>
    obtain ⟨p, rest, e, hp, hdec⟩ := hc
    cases (step_of_illegal hp hdec).symm.trans ht
    rfl
  | badopd =>
    obtain ⟨p, rest, srate, lgfft, hp, hdec, hds, hw⟩ := hc
    have hexec := execTick_illegal (s := takeCommand p rest s) hds (mt (legalOperands_iff ..).mp hw)
    cases ((step_of_decode hp hdec).trans hexec).symm.trans ht
    rfl
  | ovf =>
    obtain ⟨p, rest, srate, lgfft, r, hp, hdec, hds, hw, hr, hmin, hcs, hfull⟩ := hc
    have hexec := exec_tick_admitted (s := takeCommand p rest s) (by simp [hds]) hw hr hmin hcs
    cases ((step_of_decode hp hdec).trans hexec).symm.trans ht
    exact congrArg State.flt
      (admitBit_overflow (s := { takeCommand p rest s with cs := true, events := _ }) hds (by simp [hfull]))

/-! ### What a step raises (R160) -/

/-- An admitted bit keeps `flt`, unless it finds no room in RECEIVING (43_frame.md R113). -/
theorem admitBit_flt_cases (b : Bit) (s : State) :
    (admitBit b s).flt = s.flt ∨
    (s.ds = .receiving ∧ s.cfg.fits (s.pbuf.length + 1) = false ∧
      (admitBit b s).flt = s.flt ||| FaultBit.ovf.mask) := by
  rcases admitBit_cases b s with ⟨-, e⟩ | ⟨-, -, e⟩ | ⟨-, -, e⟩ | ⟨-, -, -, e⟩ | ⟨-, -, -, e⟩ | ⟨hds, hfull, e⟩ <;>
    rw [e]
  · exact .inl rfl
  · exact .inl rfl
  · exact .inl (lock_flt s)
  · exact .inl (appendBit_flt b s)
  · exact .inl (handOver_flt (appendBit b s))
  · exact .inr ⟨hds, hfull, overflow_flt s⟩

/-- A processed tick keeps `flt`, unless it admits a bit that finds no room in RECEIVING. -/
theorem processTick_flt_cases (r : Analysis) (s : State) :
    (processTick r s).flt = s.flt ∨
    (s.ds = .receiving ∧ s.cfg.minDet < r.strength ∧ presenceAfter s.cfg r.strength s.cs = true ∧
      s.cfg.fits (s.pbuf.length + 1) = false ∧ (processTick r s).flt = s.flt ||| FaultBit.ovf.mask) := by
  rcases processTick_cases r s with e | ⟨b, -, hmin, hcs, e⟩ <;> rw [e]
  · exact .inl (observe_flt r s)
  · rcases admitBit_flt_cases b (observe r s) with hkeep | ⟨hds, hfull, hraise⟩
    · exact .inl hkeep
    · exact .inr ⟨hds, hmin, (presenceAfter_eq ..).trans hcs, hfull, hraise⟩

/-- A step keeps `flt` or raises one fault, whose cause it meets. -/
theorem step_flt_cases {s t : State} (ht : step s = .next t) :
    t.flt = s.flt ∨ ∃ f, FaultCause s f ∧ t.flt = s.flt ||| f.mask := by
  rcases step_cases s with ⟨-, e⟩ | ⟨p, rest, e, hp, hdec, hstep⟩ | ⟨p, rest, i, hp, hdec, hstep⟩
  · cases e.symm.trans ht
    exact .inl rfl
  · cases hstep.symm.trans ht
    exact .inr ⟨.illcmd, ⟨p, rest, e, hp, hdec⟩, rfl⟩
  · rw [hstep] at ht
    cases i with
    | nop =>
      cases ht
      exact .inl rfl
    | start =>
      rcases execStart_cases (takeCommand p rest s) with ⟨-, e⟩ | ⟨-, e⟩ <;> cases e.symm.trans ht
      · exact .inl rfl
      · exact .inl rfl
    | stop =>
      cases ht
      exact .inl rfl
    | tick srate lgfft =>
      rcases execTick_cases srate lgfft (takeCommand p rest s) with ⟨-, e⟩ | ⟨hds, hl, e⟩ | ⟨-, hl, r, hr, e⟩ <;>
        cases e.symm.trans ht
      · exact .inl rfl
      · exact .inr ⟨.badopd, ⟨p, rest, srate, lgfft, hp, hdec, hds, mt (legalOperands_iff ..).mpr hl⟩, rfl⟩
      · rcases processTick_flt_cases r (takeCommand p rest s) with hkeep | ⟨hds, hmin, hcs, hfull, hraise⟩
        · exact .inl hkeep
        · exact .inr ⟨.ovf, ⟨p, rest, srate, lgfft, r, hp, hdec, hds, (legalOperands_iff ..).mp hl, hr, hmin, hcs,
            hfull⟩, hraise⟩

/-! ### From `flt = 0` -/

/-- Every fault has a bit. -/
theorem mask_ne_zero (f : FaultBit) : f.mask ≠ 0 := by
  cases f <;> decide

/-- Different faults have different bits. -/
theorem mask_inj {f g : FaultBit} (h : f.mask = g.mask) : f = g := by
  revert h
  cases f <;> cases g <;> decide

/-- The first fault raised is all that `flt` holds. -/
theorem flt_or_of_faultFree {s : State} (hff : FaultFree s) (raised : BitVec 3) : s.flt ||| raised = raised := by
  rw [hff]
  exact BitVec.zero_or

/-- From `flt = 0` a step leaves 0 or the bit of one fault whose cause it meets. -/
theorem step_flt_of_faultFree {s t : State} (hff : FaultFree s) (ht : step s = .next t) :
    t.flt = 0 ∨ ∃ f, FaultCause s f ∧ t.flt = f.mask := by
  rcases step_flt_cases ht with hkeep | ⟨f, hf, hraise⟩
  · exact .inl (hkeep.trans hff)
  · exact .inr ⟨f, hf, hraise.trans (flt_or_of_faultFree hff f.mask)⟩

/-- From `flt = 0` a step leaves exactly the bit of `f` when it meets the cause of `f`, and only then: masks are
distinct, so the fault raised tells its cause. -/
theorem step_flt_eq_mask_iff {s t : State} (hff : FaultFree s) (ht : step s = .next t) (f : FaultBit) :
    t.flt = f.mask ↔ FaultCause s f := by
  constructor
  · intro hf
    rcases step_flt_of_faultFree hff ht with h0 | ⟨g, hg, hgm⟩
    · exact absurd (hf.symm.trans h0) (mask_ne_zero f)
    · rwa [mask_inj (hf.symm.trans hgm)]
  · intro hc
    exact (step_flt_of_cause hc ht).trans (flt_or_of_faultFree hff f.mask)

/-- Settles O46: the three equivalences are `step_flt_eq_mask_iff` at each fault, and a step raises at most one. -/
theorem causeOfEachFaultBit : Obligations.CauseOfEachFaultBit := by
  intro s t hff ht
  refine ⟨step_flt_eq_mask_iff hff ht .illcmd, step_flt_eq_mask_iff hff ht .badopd,
    step_flt_eq_mask_iff hff ht .ovf, ?_⟩
  rcases step_flt_of_faultFree hff ht with h0 | ⟨f, -, hf⟩
  · exact .inl h0
  · cases f with
    | illcmd => exact .inr (.inl hf)
    | badopd => exact .inr (.inr (.inl hf))
    | ovf => exact .inr (.inr (.inr hf))

end Sys2Proof.Machine
end

section
/-! Reset and hazards (spec/70_reset_and_hazards.md): the runs in which nothing is admitted, the delivery of a whole
frame, the wait without a command, STOP and START, and the host's reset. -/

namespace Sys2Proof.Machine

/-! ### What the stages after the analyzer emit -/

@[simp] theorem decoderEvents_append (es fs : List Event) :
    decoderEvents (es ++ fs) = decoderEvents es ++ decoderEvents fs :=
  List.filter_append ..

@[simp] theorem decoderEvents_nil : decoderEvents [] = [] := rfl

@[simp] theorem decoderEvents_cons_ana (o : Option Bit) (m : Byte) (es : List Event) :
    decoderEvents (.ana o m :: es) = decoderEvents es := rfl

@[simp] theorem decoderEvents_cons_sync (es : List Event) :
    decoderEvents (.sync :: es) = .sync :: decoderEvents es := rfl

@[simp] theorem decoderEvents_cons_bit (b : Bit) (es : List Event) :
    decoderEvents (.bit b :: es) = .bit b :: decoderEvents es := rfl

@[simp] theorem decoderEvents_cons_data (p : BitSequence) (es : List Event) :
    decoderEvents (.data p :: es) = .data p :: decoderEvents es := rfl

/-! ### Nothing admitted before a strong tick (R184) -/

/-- Absence lasts through a strength not above `HIGH`, on whichever side of `LOW` it is (41_hysteresis.md R90). -/
theorem hysteresis_absent {cfg : Config} {m : Byte} (h : m ≤ cfg.high) : hysteresis cfg m false = false := by
  rw [hysteresis, if_neg (BitVec.not_lt.mpr h), ite_self]

/-- What `t` keeps of `s` when no bit was admitted between them: presence state, configuration, the events other than
ANA, empty sequences, and that no frame is being received. -/
structure AdmitsNothing (s t : State) : Prop where
  cs : t.cs = s.cs
  cfg : t.cfg = s.cfg
  events : decoderEvents t.events = decoderEvents s.events
  win : s.win = [] → t.win = []
  pbuf : s.pbuf = [] → t.pbuf = []
  ds : t.ds = .receiving → s.ds = .receiving

theorem admitsNothing_refl (s : State) : AdmitsNothing s s :=
  ⟨rfl, rfl, rfl, id, id, id⟩

theorem admitsNothing_trans {s u t : State} (h : AdmitsNothing s u) (h' : AdmitsNothing u t) : AdmitsNothing s t where
  cs := h'.cs.trans h.cs
  cfg := h'.cfg.trans h.cfg
  events := h'.events.trans h.events
  win hw := h'.win (h.win hw)
  pbuf hp := h'.pbuf (h.pbuf hp)
  ds hd := h.ds (h'.ds hd)

theorem takeCommand_admitsNothing (p : Presentation) (rest : List Presentation) (s : State) :
    AdmitsNothing s (takeCommand p rest s) :=
  ⟨rfl, rfl, rfl, id, id, id⟩

theorem raiseFault_admitsNothing (f : FaultBit) (s : State) : AdmitsNothing s (raiseFault f s) :=
  ⟨rfl, rfl, rfl, id, id, id⟩

/-- Only the lock enters RECEIVING; the other writes of `ds` admit nothing. -/
theorem enterDs_admitsNothing {d : DetectorState} (h : d ≠ .receiving) (s : State) : AdmitsNothing s (enterDs d s) :=
  ⟨rfl, rfl, rfl, fun _ => rfl, fun _ => rfl, fun hd => absurd hd h⟩

/-- In absence a processed tick not above `HIGH` emits ANA and does nothing else. -/
theorem processTick_admitsNothing {r : Analysis} {s : State} (hcs : s.cs = false) (hr : r.strength ≤ s.cfg.high) :
    AdmitsNothing s (processTick r s) := by
  have habs : hysteresis s.cfg r.strength s.cs = false := hcs ▸ hysteresis_absent hr
  rw [processTick_of_absent habs]
  exact ⟨hcs.symm, rfl, by simp, id, id, id⟩

/-- In absence a step admits nothing, unless it is a processed tick above `HIGH`. -/
theorem step_admitsNothing {s t : State} (hcs : s.cs = false)
    (hweak : ∀ r, ProcessesTick s r → r.strength ≤ s.cfg.high) (ht : step s = .next t) : AdmitsNothing s t := by
  rcases step_cases s with ⟨-, e⟩ | ⟨p, rest, -, -, -, e⟩ | ⟨p, rest, i, hp, hdec, e⟩ <;> rw [e] at ht
  · cases ht
    exact admitsNothing_refl s
  · cases ht
    exact admitsNothing_trans (takeCommand_admitsNothing p rest s) (raiseFault_admitsNothing .illcmd _)
  · refine admitsNothing_trans (takeCommand_admitsNothing p rest s) ?_
    cases i with
    | nop =>
      cases ht
      exact admitsNothing_refl _
    | start =>
      rcases execStart_cases (takeCommand p rest s) with ⟨-, e⟩ | ⟨-, e⟩ <;> cases e.symm.trans ht
      · exact enterDs_admitsNothing (by decide) _
      · exact admitsNothing_refl _
    | stop =>
      cases ht
      exact enterDs_admitsNothing (by decide) _
    | tick srate lgfft =>
      rcases execTick_cases srate lgfft (takeCommand p rest s) with ⟨-, e⟩ | ⟨-, -, e⟩ | ⟨hds, hl, r, hr, e⟩ <;>
        cases e.symm.trans ht
      · exact admitsNothing_refl _
      · exact raiseFault_admitsNothing .badopd _
      · exact processTick_admitsNothing hcs
          (hweak r ⟨p, rest, srate, lgfft, hp, hdec, hds, (legalOperands_iff ..).mp hl, hr⟩)

/-- No tick processed in the next `k` steps of `s` is stronger than `high`. -/
def WeakTicksAhead (high : Byte) (k : Nat) (s : State) : Prop :=
  ∀ (j : Nat) (u : State) (r : Analysis), j < k → Host.Core.run Sys2Proof.core j s = .next u →
    ProcessesTick u r → r.strength ≤ high

/-- The next step is among those ahead. -/
theorem weakTicksAhead_now {high : Byte} {k : Nat} {s : State} (h : WeakTicksAhead high (k + 1) s) :
    ∀ r, ProcessesTick s r → r.strength ≤ high :=
  fun r => h 0 s r k.succ_pos (run_zero s)

/-- After a step one step less is ahead. -/
theorem weakTicksAhead_step {high : Byte} {k : Nat} {s t : State} (h : WeakTicksAhead high (k + 1) s)
    (ht : step s = .next t) : WeakTicksAhead high k t :=
  fun j u r hj hu => h (j + 1) u r (Nat.succ_lt_succ hj) ((run_succ j ht).trans hu)

/-- Settles O28: along the run nothing has been admitted so far, so the presence state is still 0 at each step, and the
next tick is not above `HIGH`. -/
theorem nothingAdmittedBeforeAStrongTick : Obligations.NothingAdmittedBeforeAStrongTick := by
  intro k s t hcs hweak hrun
  have hstep (k : Nat) (u v : State) (h : AdmitsNothing s u ∧ WeakTicksAhead s.cfg.high (k + 1) u)
      (hv : step u = .next v) : AdmitsNothing s v ∧ WeakTicksAhead s.cfg.high k v := by
    obtain ⟨hu, hahead⟩ := h
    have huv := step_admitsNothing (hu.cs.trans hcs) (hu.cfg ▸ weakTicksAhead_now hahead) hv
    exact ⟨admitsNothing_trans hu huv, weakTicksAhead_step hahead hv⟩
  obtain ⟨h, -⟩ := run_keeps (fun k u => AdmitsNothing s u ∧ WeakTicksAhead s.cfg.high k u) hstep k s t
    ⟨admitsNothing_refl s, hweak⟩ hrun
  exact ⟨h.cs.trans hcs, h.events, h.win, h.pbuf, h.ds⟩

/-! ### Ticks that carry bits, as the feeding of those bits (R187) -/

/-- The state without what no stage after the analyzer reads or writes: presence state, spectrum, port and the ANA
events. -/
def decoderView (s : State) : State :=
  { s with cs := true, spectrum := [], port := [], events := decoderEvents s.events }

/-- Taking a command and observing its tick writes only what the view leaves out. -/
theorem decoderView_observe (r : Analysis) (p : Presentation) (rest : List Presentation) (s : State) :
    decoderView (observe r (takeCommand p rest s)) = decoderView s := by
  simp [decoderView, observe, emit, takeCommand]

/-- The view commutes with an admitted bit. -/
theorem decoderView_admitBit (b : Bit) (s : State) : decoderView (admitBit b s) = admitBit b (decoderView s) := by
  rcases admitBit_cases b s with ⟨hds, e⟩ | ⟨hds, hne, e⟩ | ⟨hds, hm, e⟩ | ⟨hds, hf, ht, e⟩ | ⟨hds, hf, ht, e⟩ |
    ⟨hds, hf, e⟩ <;> rw [e]
  · simp [admitBit, decoderView, hds]
  · rw [admitBit_roll (s := decoderView s) hds hne]
    rfl
  · rw [admitBit_lock (s := decoderView s) hds hm]
    simp [decoderView, lock, enterDs, emit]
  · rw [admitBit_append (s := decoderView s) hds hf ht]
    simp [decoderView, appendBit, emit]
  · rw [admitBit_handOver (s := decoderView s) hds hf ht]
    simp [decoderView, handOver, appendBit, enterDs, emit]
  · rw [admitBit_overflow (s := decoderView s) hds (by simpa [decoderView] using hf)]
    rfl

/-- Only STOP and reset enter IDLE. -/
theorem admitBit_ds_ne_idle (b : Bit) {s : State} (h : s.ds ≠ .idle) : (admitBit b s).ds ≠ .idle := by
  by_cases hkeep : (admitBit b s).ds = s.ds
  · rwa [hkeep]
  · rcases bitMovesTo_of_admitBit_ds_ne hkeep with ⟨-, -, e⟩ | ⟨-, -, -, e⟩ | ⟨-, -, e⟩ <;> rw [e] <;> decide

/-- A step whose command carries a bit admits that bit and leaves the presence state at 1: a strength above `HIGH` is
not below `LOW`. -/
theorem step_of_carriesBit {s : State} {p : Presentation} {rest : List Presentation} {b : Bit}
    (hlh : s.cfg.low ≤ s.cfg.high) (hds : s.ds ≠ .idle) (hp : s.port = p :: rest) (h : CarriesBit s.cfg p b) :
    ∃ t, step s = .next t ∧ decoderView t = admitBit b (decoderView s) ∧ t.cs = true ∧ t.cfg = s.cfg ∧
      t.port = rest ∧ t.ds ≠ .idle := by
  obtain ⟨srate, lgfft, r, hdec, hl, hr, hb, hmin, hhigh⟩ := h
  have hcs : hysteresis s.cfg r.strength s.cs = true :=
    hysteresis_above (BitVec.le_trans hlh (BitVec.le_of_lt hhigh)) hhigh s.cs
  have hadm := processTick_admitted (s := takeCommand p rest s) hb hmin hcs
  obtain ⟨htcs, hcfg, -, hport⟩ := processTick_frame r (takeCommand p rest s)
  refine ⟨_, step_tick hp hdec hds hl hr, ?_, htcs.trans hcs, hcfg, hport, ?_⟩
  · rw [hadm, decoderView_admitBit, decoderView_observe]
  · rw [hadm]
    exact admitBit_ds_ne_idle b hds

/-- A run over commands that carry bits feeds those bits, and one bit is enough for the presence state to be 1. -/
theorem run_of_carriedBits {cfg : Config} (hlh : cfg.low ≤ cfg.high) {frame : List Presentation} {bits : BitSequence}
    (h : List.Forall₂ (CarriesBit cfg) frame bits) {s : State} {rest : List Presentation} (hcfg : s.cfg = cfg)
    (hds : s.ds ≠ .idle) (hport : s.port = frame ++ rest) :
    ∃ t, Host.Core.run Sys2Proof.core frame.length s = .next t ∧ decoderView t = feed bits (decoderView s) ∧
      (s.cs = true ∨ bits ≠ [] → t.cs = true) ∧ t.port = rest := by
  induction h generalizing s with
  | nil => exact ⟨s, run_zero s, rfl, fun hcs => hcs.resolve_right (not_not_intro rfl), hport⟩
  | cons hb _ ih =>
    subst hcfg
    obtain ⟨u, hu, hview, hcs, hcfg, hport', hds'⟩ := step_of_carriesBit hlh hds hport hb
    obtain ⟨t, hrun, htview, htcs, htport⟩ := ih hcfg hds' hport'
    exact ⟨t, (run_succ _ hu).trans hrun, by rw [htview, hview, feed_cons], fun _ => htcs (.inl hcs), htport⟩

/-! ### The bits of a whole frame (R188, 30_encoding.md R56) -/

/-- A sequence of `n` bits is its own last `n` bits. -/
theorem lastn_of_length_eq {xs : BitSequence} {n : Nat} (h : xs.length = n) : lastn xs n = xs := by
  simp [lastn, h]

/-- The last bits of a sequence that ends in as many bits are those. -/
theorem lastn_append {xs ys : BitSequence} {n : Nat} (h : ys.length = n) : lastn (xs ++ ys) n = ys := by
  simp [lastn, h]

/-- The preamble alone locks: no proper initial part of it is as long as the window (42_sync.md R104). -/
theorem feed_preamble {s : State} (hwf : s.cfg.WellFormed) (hds : s.ds = .syncing) (hwin : s.win = []) :
    feed s.cfg.preamble s = { s with ds := .receiving, win := [], pbuf := [], events := s.events ++ [.sync] } := by
  have hlen : s.cfg.preamble.length = s.cfg.winLen := hwf.2.1
  obtain ⟨xs, b, hxs⟩ := (List.eq_nil_or_concat' s.cfg.preamble).resolve_left (wellFormed_preamble hwf)
  have hshort (n : Nat) (_ : n ≤ xs.length) : lastn (xs.take n) s.cfg.winLen ≠ s.cfg.preamble := by
    intro heq
    have := congrArg List.length heq
    simp only [hxs, lastn, List.length_drop, List.length_take, List.length_append, List.length_singleton] at this
    omega
  have hmatch : lastn (xs ++ [b]) s.cfg.winLen = s.cfg.preamble := by rw [← hxs, lastn_of_length_eq hlen]
  rw [hxs]
  exact lockAtTheFirstMatch s xs b hwf hds hwin hshort hmatch

/-- After a 0, fewer than `m` ones do not make the last `m` bits ones: the 0 is among them. -/
theorem lastn_ne_ones {k m : Nat} (h : k < m) (xs : BitSequence) : lastn (xs ++ false :: ones k) m ≠ ones m := by
  intro heq
  have hones : ones m <:+ xs ++ false :: ones k := heq ▸ List.drop_suffix ..
  have hzero : false :: ones k <:+ ones m :=
    List.suffix_of_suffix_length_le (List.suffix_append ..) hones (by simpa [ones] using h)
  exact Bool.false_ne_true (List.eq_of_mem_replicate (hzero.subset List.mem_cons_self))

/-- A payload that R188 allows is not cut before its terminator is complete. -/
theorem no_early_terminator {cfg : Config} {p : BitSequence} (h : DeliverablePayload cfg p) {n : Nat}
    (hn : n < (p ++ ones cfg.termLen).length) (hlong : cfg.guard < n) :
    lastn ((p ++ ones cfg.termLen).take n) cfg.termLen ≠ ones cfg.termLen := by
  obtain ⟨-, hrun, hlast⟩ := h
  by_cases hin : n ≤ p.length
  · rw [List.take_append_of_le_length hin]
    exact hrun n hlong hin
  · have hk : n - p.length < cfg.termLen := by
      simp only [List.length_append, ones, List.length_replicate] at hn
      omega
    have htake : (p ++ ones cfg.termLen).take n = p ++ ones (n - p.length) := by
      rw [List.take_append, List.take_of_length_le (by omega), ones, List.take_replicate, Nat.min_eq_left hk.le, ones]
    obtain ⟨xs, rfl⟩ := List.getLast?_eq_some_iff.mp hlast
    rw [htake, List.append_assoc]
    exact lastn_ne_ones hk xs

/-- Payload and terminator are cut to the payload (43_frame.md R115, R117). -/
theorem feed_payload {s : State} {p : BitSequence} (hds : s.ds = .receiving) (hpbuf : s.pbuf = [])
    (hp : DeliverablePayload s.cfg p) (hfits : s.cfg.fits (p.length + s.cfg.termLen) = true) :
    feed (p ++ ones s.cfg.termLen) s =
      { s with
        ds := .syncing, win := [], pbuf := []
        events := s.events ++ (p ++ ones s.cfg.termLen).map Event.bit ++ [.data p] } := by
  have hones : (ones s.cfg.termLen).length = s.cfg.termLen := List.length_replicate
  have hlen : (p ++ ones s.cfg.termLen).length = p.length + s.cfg.termLen := by rw [List.length_append, hones]
  have hpayload : (p ++ ones s.cfg.termLen).take ((p ++ ones s.cfg.termLen).length - s.cfg.termLen) = p := by
    rw [hlen, Nat.add_sub_cancel, List.take_left]
  obtain ⟨hcut, -⟩ := frameIsCutAtTheFirstRunOfOnes s (p ++ ones s.cfg.termLen) hds hpbuf (hlen ▸ hfits)
    fun _ => no_early_terminator hp
  rw [hcut (hlen ▸ hp.1) (lastn_append hones), hpayload]

/-- The bits of a wire frame lock, hand the payload over and return to SYNCING. -/
theorem feed_wireFrame {s : State} {p : BitSequence} (hwf : s.cfg.WellFormed) (hds : s.ds = .syncing)
    (hwin : s.win = []) (hp : DeliverablePayload s.cfg p)
    (hfits : s.cfg.fits (p.length + s.cfg.termLen) = true) :
    feed (wireFrame s.cfg p) s =
      { s with
        ds := .syncing, win := [], pbuf := []
        events := s.events ++ (.sync :: (p ++ ones s.cfg.termLen).map Event.bit ++ [.data p]) } := by
  rw [wireFrame, List.append_assoc, feed_append, feed_preamble hwf hds hwin,
    feed_payload (s := { s with ds := .receiving, win := [], pbuf := [], events := _ }) rfl rfl hp hfits]
  simp

/-- Settles O32: the run's decoder view is the view of `s` fed with the frame's bits, and the preamble's first bit has
set the presence state. -/
theorem wholeFrameIsDelivered : Obligations.WholeFrameIsDelivered := by
  intro s p frame rest hwf hds hwin hport hcarry hp hfits
  obtain ⟨t, hrun, hview, hcs, htport⟩ := run_of_carriedBits hwf.1 hcarry rfl (by simp [hds]) hport
  have hne : wireFrame s.cfg p ≠ [] := by simp [wireFrame, wellFormed_preamble hwf]
  have hfed := hview.trans (feed_wireFrame (s := decoderView s) hwf hds hwin hp hfits)
  exact ⟨t, hrun, congrArg State.ds hfed, congrArg State.win hfed, congrArg State.pbuf hfed, hcs (.inr hne),
    (congrArg State.flt hfed :), (congrArg State.cfg hfed :), htport, congrArg State.events hfed⟩

/-! ### No command, STOP and START, the host's reset (R180, R181, R183) -/

/-- Settles O7: an empty port is the waiting case of the step. -/
theorem noCommandNothingChanges : Obligations.NoCommandNothingChanges := by
  intro s hp
  rw [step, hp]

/-- Settles O13: a STOP leaves IDLE, where START enters SYNCING; neither write of `ds` touches `cs` or `flt`. -/
theorem stopStartKeepsPresenceAndFaults : Obligations.StopStartKeepsPresenceAndFaults := by
  intro s t ht
  obtain rfl : enterDs .idle s = t := Host.Outcome.next.inj ht
  obtain ⟨-, hstart⟩ := startEntersSyncingFromIdle
  obtain ⟨hidle, -⟩ := hstart (enterDs .idle s)
  exact hidle (enterDs_ds .idle s)

/-- Settles O48, field by field. -/
theorem hostResetRestoresEveryElement : Obligations.HostResetRestoresEveryElement :=
  fun s => ⟨hostReset_ds s, hostReset_cs s, hostReset_win s, hostReset_pbuf s, hostReset_flt s, hostReset_cfg s,
    hostReset_events s⟩

end Sys2Proof.Machine
end
